-- ==== Sys2Proof/Word.lean ====
section
/-! DEFINITION. The widths of the values the block moves (10_state.md R20, 30_encoding.md R77 to R79).
Every value is unsigned and bit 0 is its least significant bit (00_scope.md R10).
Quantities a rule computes are naturals, exact (00_scope.md R11). -/

namespace Sys2Proof

/-- One byte of the input buffer (10_state.md R36). -/
abbrev Byte := BitVec 8

/-- One register of the REG space, and the data of a register transaction (20_memory.md R50, R58). -/
abbrev Reg32 := BitVec 32

/-- A byte offset in the REG space (30_encoding.md R77, R78). -/
abbrev Offset := BitVec 8

end Sys2Proof
end

