-- ==== Sys2Proof/Syntax.lean ====
section
/-! DEFINITION. The operations of opcode_table.json (one constructor a row), the formats their words
come in (30_encoding.md R70, R77 to R80), and the events of 43_sequencer.md R120. -/

namespace Sys2Proof

/-- The operations: one constructor for each row of opcode_table.json. -/
inductive Instr where
  /-- `NOP` (44_host_interface.md R143). -/
  | nop
  /-- `START` (R144). -/
  | start
  /-- `CLEAR` (R145). -/
  | clear
  /-- `CMD.RESERVED` (R146): a command code other than 0, 1, 2. -/
  | cmdReserved (wdata : Reg32)
  /-- `WRSTATUS` (R141, 20_memory.md R57): a write to the read-only `STATUS`. -/
  | wrstatus (wdata : Reg32)
  /-- `WRREG.CFG_W` (R141). -/
  | wrregCfgW (wdata : Reg32)
  /-- `WRREG.CFG_B` (R141). -/
  | wrregCfgB (wdata : Reg32)
  /-- `WRREG.CFG_S` (R141). -/
  | wrregCfgS (wdata : Reg32)
  /-- `WRREG.CFG_O` (R141). -/
  | wrregCfgO (wdata : Reg32)
  /-- `WRREG.CFG_WIDTH` (R141). -/
  | wrregCfgWidth (wdata : Reg32)
  /-- `WRREG.CFG_HEIGHT` (R141). -/
  | wrregCfgHeight (wdata : Reg32)
  /-- `WRREG.CFG_LEN` (R141). -/
  | wrregCfgLen (wdata : Reg32)
  /-- `REGW.RESERVED` (20_memory.md R57): a write at a reserved offset. -/
  | regwReserved (offset : Offset) (wdata : Reg32)
  /-- `RDREG.CMD` (R142). -/
  | rdregCmd
  /-- `RDREG.STATUS` (R142). -/
  | rdregStatus
  /-- `RDREG.CFG_W` (R142). -/
  | rdregCfgW
  /-- `RDREG.CFG_B` (R142). -/
  | rdregCfgB
  /-- `RDREG.CFG_S` (R142). -/
  | rdregCfgS
  /-- `RDREG.CFG_O` (R142). -/
  | rdregCfgO
  /-- `RDREG.CFG_WIDTH` (R142). -/
  | rdregCfgWidth
  /-- `RDREG.CFG_HEIGHT` (R142). -/
  | rdregCfgHeight
  /-- `RDREG.CFG_LEN` (R142). -/
  | rdregCfgLen
  /-- `REGR.RESERVED` (20_memory.md R57): a read at a reserved offset. -/
  | regrReserved (offset : Offset)
  /-- `WRIN` (R147). -/
  | wrin (addr : BitVec 32) (wdata : Byte)
  /-- `RDOUT` (R148). -/
  | rdout (idx : BitVec 32)
  /-- `RESET` (R149). -/
  | reset
  /-- `CHECK`, the decoder step of `BUSY`/`CHECK` (43_sequencer.md R122). -/
  | check
  /-- `CFGCHK`, first check of `CHECK` (R123). -/
  | cfgchk
  /-- `LENCHK`, second check of `CHECK` (40_sample_extractor.md R94). -/
  | lenchk
  /-- `DIMCHK`, third check of `CHECK` (42_raster_assembler.md R111). -/
  | dimchk
  /-- `RUN`, the decoder step of `BUSY`/`RUN` (43_sequencer.md R124). -/
  | run
  /-- `FETCHW`, part of `RUN` (40_sample_extractor.md R91). -/
  | fetchw
  /-- `EXTRACT`, part of `RUN` (R92). -/
  | extract
  /-- `ZEXT`, part of `RUN` (41_bit_reversal_normalizer.md R100). -/
  | zext
  /-- `BITREV`, part of `RUN` (R101). -/
  | bitrev
  /-- `STORE`, part of `RUN` (42_raster_assembler.md R112). -/
  | store
  /-- `ADVANCE`, part of `RUN` (43_sequencer.md R125). -/
  | advance
  /-- `FINISH`, part of `RUN` (R126). -/
  | finish
  /-- `PACKEDWORD.default`, a data format (30_encoding.md R72). -/
  | packedwordDefault (pad : BitVec 2) (sample2 sample1 sample0 : BitVec 10)
  /-- `NORMSAMPLE.default`, a data format (R75): the raw sample whose bits it carries. -/
  | normsampleDefault (raw : BitVec 10)
  deriving DecidableEq, Repr

/-- The formats of 30_encoding.md, each with its own fields: the words a decoder is given. -/
inductive Encoded where
  /-- `REGW` (R77). -/
  | regw (offset : Offset) (wdata : Reg32)
  /-- `REGR` (R78). -/
  | regr (offset : Offset)
  /-- `INW` (R79). -/
  | inw (addr : BitVec 32) (wdata : Byte)
  /-- `OUTR` (R79). -/
  | outr (idx : BitVec 32)
  /-- `RESET`, no fields (R79). -/
  | reset
  /-- `SEQ`: the sequencer's own selection `{STATE, PHASE}` (R80). -/
  | seq (sel : BitVec 3)
  /-- A packed word of the default mode (R72), a data format. -/
  | packedWord (word : BitVec 32)
  /-- A normalized sample of the default widths (R75), a data format. -/
  | normSample (value : BitVec 16)
  deriving DecidableEq, Repr

/-- An event of 43_sequencer.md R120.  `bus e` is a word from outside: a host transaction or `RESET`.
`step` is the line `STEP` of 30_encoding.md R84: the decoder takes its step, if it has one. -/
inductive Event where
  | bus (e : Encoded)
  | step
  deriving DecidableEq, Repr

/-- The words of a host transaction (44_host_interface.md R140), `RESET` left out. -/
def Encoded.isTransaction : Encoded → Bool
  | .regw _ _ | .regr _ | .inw _ _ | .outr _ => true
  | .reset | .seq _ | .packedWord _ | .normSample _ => false

/-- A host transaction as an event. -/
def Event.isTransaction : Event → Bool
  | .bus e => e.isTransaction
  | .step => false

/-- The row's mnemonic, as opcode_table.json spells it. -/
def Instr.mnemonic : Instr → String
  | .nop => "NOP"
  | .start => "START"
  | .clear => "CLEAR"
  | .cmdReserved _ => "CMD.RESERVED"
  | .wrstatus _ => "WRSTATUS"
  | .wrregCfgW _ => "WRREG.CFG_W"
  | .wrregCfgB _ => "WRREG.CFG_B"
  | .wrregCfgS _ => "WRREG.CFG_S"
  | .wrregCfgO _ => "WRREG.CFG_O"
  | .wrregCfgWidth _ => "WRREG.CFG_WIDTH"
  | .wrregCfgHeight _ => "WRREG.CFG_HEIGHT"
  | .wrregCfgLen _ => "WRREG.CFG_LEN"
  | .regwReserved _ _ => "REGW.RESERVED"
  | .rdregCmd => "RDREG.CMD"
  | .rdregStatus => "RDREG.STATUS"
  | .rdregCfgW => "RDREG.CFG_W"
  | .rdregCfgB => "RDREG.CFG_B"
  | .rdregCfgS => "RDREG.CFG_S"
  | .rdregCfgO => "RDREG.CFG_O"
  | .rdregCfgWidth => "RDREG.CFG_WIDTH"
  | .rdregCfgHeight => "RDREG.CFG_HEIGHT"
  | .rdregCfgLen => "RDREG.CFG_LEN"
  | .regrReserved _ => "REGR.RESERVED"
  | .wrin _ _ => "WRIN"
  | .rdout _ => "RDOUT"
  | .reset => "RESET"
  | .check => "CHECK"
  | .cfgchk => "CFGCHK"
  | .lenchk => "LENCHK"
  | .dimchk => "DIMCHK"
  | .run => "RUN"
  | .fetchw => "FETCHW"
  | .extract => "EXTRACT"
  | .zext => "ZEXT"
  | .bitrev => "BITREV"
  | .store => "STORE"
  | .advance => "ADVANCE"
  | .finish => "FINISH"
  | .packedwordDefault _ _ _ _ => "PACKEDWORD.default"
  | .normsampleDefault _ => "NORMSAMPLE.default"

end Sys2Proof
end

