-- ==== Sys2Proof/WellFormed.lean ====
section
/-! DEFINITION. Which operands an operation can have (30_encoding.md R77, R82; 20_memory.md R57).
Only the three default rows of the table restrict their operands; every other field is free. -/

namespace Sys2Proof

/-- A reserved offset of the REG space: `0x24 .. 0xFC`, a multiple of 4 (20_memory.md R57). -/
def Offset.isReserved (o : Offset) : Bool :=
  decide (0x24 ≤ o.toNat) && decide (o.toNat % 4 = 0)

/-- An instruction that some word of its format encodes. -/
def Instr.wf : Instr → Bool
  | .cmdReserved v => decide (v.toNat ≠ 0 ∧ v.toNat ≠ 1 ∧ v.toNat ≠ 2)
  | .regwReserved o _ => Offset.isReserved o
  | .regrReserved o => Offset.isReserved o
  | .nop | .start | .clear | .wrstatus _ => true
  | .wrregCfgW _ | .wrregCfgB _ | .wrregCfgS _ | .wrregCfgO _ => true
  | .wrregCfgWidth _ | .wrregCfgHeight _ | .wrregCfgLen _ => true
  | .rdregCmd | .rdregStatus | .rdregCfgW | .rdregCfgB | .rdregCfgS | .rdregCfgO => true
  | .rdregCfgWidth | .rdregCfgHeight | .rdregCfgLen => true
  | .wrin _ _ | .rdout _ | .reset => true
  | .check | .cfgchk | .lenchk | .dimchk => true
  | .run | .fetchw | .extract | .zext | .bitrev | .store | .advance | .finish => true
  | .packedwordDefault _ _ _ _ | .normsampleDefault _ => true

end Sys2Proof
end

