-- ==== Sys2Proof/Decode.lean ====
section
/-! DEFINITION. Decoding: a total function from the words of 30_encoding.md to operations, which
rejects by name, and the encoder written from the same tables (R77 to R80, R72, R75). -/

namespace Sys2Proof

/-- Why a word is no operation. -/
inductive DecodeError where
  /-- A `REGW` or `REGR` offset that is not a multiple of 4 (20_memory.md R57). -/
  | notAnAddress
  /-- A `sel` of `IDLE`, `DONE` or `ERROR`: the decoder has no step (30_encoding.md R80). -/
  | noStep
  /-- A 16-bit value whose low 6 bits are not 0: no normalized sample of `B = 10` (R75). -/
  | notASample
  deriving DecidableEq, Repr

/-- A write to `CMD` is a command, by its value (30_encoding.md R77, R82). -/
def decodeCommand (wdata : Reg32) : Instr :=
  match wdata.toNat with
  | 0 => .nop
  | 1 => .start
  | 2 => .clear
  | _ => .cmdReserved wdata

/-- `REGW` (30_encoding.md R77; the offsets are 20_memory.md R56). -/
def decodeRegw (offset : Offset) (wdata : Reg32) : Except DecodeError Instr :=
  match offset.toNat with
  | 0x00 => .ok (decodeCommand wdata)
  | 0x04 => .ok (.wrstatus wdata)
  | 0x08 => .ok (.wrregCfgW wdata)
  | 0x0C => .ok (.wrregCfgB wdata)
  | 0x10 => .ok (.wrregCfgS wdata)
  | 0x14 => .ok (.wrregCfgO wdata)
  | 0x18 => .ok (.wrregCfgWidth wdata)
  | 0x1C => .ok (.wrregCfgHeight wdata)
  | 0x20 => .ok (.wrregCfgLen wdata)
  | n => if n % 4 = 0 then .ok (.regwReserved offset wdata) else .error .notAnAddress

/-- `REGR` (30_encoding.md R78). -/
def decodeRegr (offset : Offset) : Except DecodeError Instr :=
  match offset.toNat with
  | 0x00 => .ok .rdregCmd
  | 0x04 => .ok .rdregStatus
  | 0x08 => .ok .rdregCfgW
  | 0x0C => .ok .rdregCfgB
  | 0x10 => .ok .rdregCfgS
  | 0x14 => .ok .rdregCfgO
  | 0x18 => .ok .rdregCfgWidth
  | 0x1C => .ok .rdregCfgHeight
  | 0x20 => .ok .rdregCfgLen
  | n => if n % 4 = 0 then .ok (.regrReserved offset) else .error .notAnAddress

/-- `SEQ` (30_encoding.md R80): `0b010` is `CHECK`, `0b011` is `RUN`, no other `sel` has a step. -/
def decodeSeq (sel : BitVec 3) : Except DecodeError Instr :=
  if sel = 0b010#3 then .ok .check
  else if sel = 0b011#3 then .ok .run
  else .error .noStep

/-- A packed word of the default mode, `ppccccccccccbbbbbbbbbbaaaaaaaaaa` (30_encoding.md R72). -/
def decodePackedWord (word : BitVec 32) : Instr :=
  .packedwordDefault (word.extractLsb' 30 2) (word.extractLsb' 20 10) (word.extractLsb' 10 10)
    (word.extractLsb' 0 10)

/-- A normalized sample of the default widths, `abcdefghij000000` with `a` .. `j` the raw bits 0 .. 9
(30_encoding.md R75). -/
def decodeNormSample (value : BitVec 16) : Except DecodeError Instr :=
  if value.extractLsb' 0 6 = 0#6 then .ok (.normsampleDefault (value.extractLsb' 6 10).reverse)
  else .error .notASample

/-- The decoder: every word of every format gives an operation or a reason why not. -/
def decode : Encoded → Except DecodeError Instr
  | .regw offset wdata => decodeRegw offset wdata
  | .regr offset => decodeRegr offset
  | .inw addr wdata => .ok (.wrin addr wdata)
  | .outr idx => .ok (.rdout idx)
  | .reset => .ok .reset
  | .seq sel => decodeSeq sel
  | .packedWord word => .ok (decodePackedWord word)
  | .normSample value => decodeNormSample value

/-- The encoder.  A part of a step has no encoding of its own and carries its step's `sel`
(30_encoding.md R80, log 9). -/
def encode : Instr → Encoded
  | .nop => .regw 0x00 0
  | .start => .regw 0x00 1
  | .clear => .regw 0x00 2
  | .cmdReserved v => .regw 0x00 v
  | .wrstatus v => .regw 0x04 v
  | .wrregCfgW v => .regw 0x08 v
  | .wrregCfgB v => .regw 0x0C v
  | .wrregCfgS v => .regw 0x10 v
  | .wrregCfgO v => .regw 0x14 v
  | .wrregCfgWidth v => .regw 0x18 v
  | .wrregCfgHeight v => .regw 0x1C v
  | .wrregCfgLen v => .regw 0x20 v
  | .regwReserved o v => .regw o v
  | .rdregCmd => .regr 0x00
  | .rdregStatus => .regr 0x04
  | .rdregCfgW => .regr 0x08
  | .rdregCfgB => .regr 0x0C
  | .rdregCfgS => .regr 0x10
  | .rdregCfgO => .regr 0x14
  | .rdregCfgWidth => .regr 0x18
  | .rdregCfgHeight => .regr 0x1C
  | .rdregCfgLen => .regr 0x20
  | .regrReserved o => .regr o
  | .wrin a v => .inw a v
  | .rdout i => .outr i
  | .reset => .reset
  | .check | .cfgchk | .lenchk | .dimchk => .seq 0b010
  | .run | .fetchw | .extract | .zext | .bitrev | .store | .advance | .finish => .seq 0b011
  | .packedwordDefault p c b a => .packedWord (p ++ c ++ b ++ a)
  | .normsampleDefault raw => .normSample (raw.reverse ++ 0#6)

/-- The operation a word of `i` is executed as: a part of a step stands in its step
(`part_of` in opcode_table.json); everything else is itself. -/
def Instr.wholeStep : Instr → Instr
  | .cfgchk | .lenchk | .dimchk => .check
  | .fetchw | .extract | .zext | .bitrev | .store | .advance | .finish => .run
  | i => i

/-- A row of opcode_table.json with match and mask bits. -/
structure TableRow where
  mnemonic : String
  pattern : Nat
  mask : Nat
  deriving DecidableEq, Repr

/-- The `REGW` rows over the 40-bit value `{offset, wdata}`, in the table's order: the first that
matches is the operation (30_encoding.md R77). -/
def regwTable : List TableRow :=
  [⟨"NOP", 0x0000000000, 0xFFFFFFFFFF⟩, ⟨"START", 0x0000000001, 0xFFFFFFFFFF⟩,
   ⟨"CLEAR", 0x0000000002, 0xFFFFFFFFFF⟩, ⟨"CMD.RESERVED", 0x0000000000, 0xFF00000000⟩,
   ⟨"WRSTATUS", 0x0400000000, 0xFF00000000⟩, ⟨"WRREG.CFG_W", 0x0800000000, 0xFF00000000⟩,
   ⟨"WRREG.CFG_B", 0x0C00000000, 0xFF00000000⟩, ⟨"WRREG.CFG_S", 0x1000000000, 0xFF00000000⟩,
   ⟨"WRREG.CFG_O", 0x1400000000, 0xFF00000000⟩, ⟨"WRREG.CFG_WIDTH", 0x1800000000, 0xFF00000000⟩,
   ⟨"WRREG.CFG_HEIGHT", 0x1C00000000, 0xFF00000000⟩, ⟨"WRREG.CFG_LEN", 0x2000000000, 0xFF00000000⟩,
   ⟨"REGW.RESERVED", 0x0000000000, 0x0000000000⟩]

/-- The `REGR` rows over the offset (30_encoding.md R78). -/
def regrTable : List TableRow :=
  [⟨"RDREG.CMD", 0x00, 0xFF⟩, ⟨"RDREG.STATUS", 0x04, 0xFF⟩, ⟨"RDREG.CFG_W", 0x08, 0xFF⟩,
   ⟨"RDREG.CFG_B", 0x0C, 0xFF⟩, ⟨"RDREG.CFG_S", 0x10, 0xFF⟩, ⟨"RDREG.CFG_O", 0x14, 0xFF⟩,
   ⟨"RDREG.CFG_WIDTH", 0x18, 0xFF⟩, ⟨"RDREG.CFG_HEIGHT", 0x1C, 0xFF⟩, ⟨"RDREG.CFG_LEN", 0x20, 0xFF⟩,
   ⟨"REGR.RESERVED", 0x00, 0x00⟩]

/-- The mnemonic of the first row that matches a value. -/
def lookupRow (rows : List TableRow) (value : Nat) : Option String :=
  (rows.find? fun r => value &&& r.mask == r.pattern).map TableRow.mnemonic

/-- The word a row of opcode_table.json stands for, from its bits and how many there are (log 15):
40 bits are `REGW`, 8 are a `REGR` offset or a `SEQ` selection (no `sel` that has a step is a
multiple of 4, and every offset is), 32 a packed word, 16 a normalized sample, none `RESET`. -/
def encodedOfTable (nbits w : Nat) : Option Encoded :=
  match nbits with
  | 40 => some (.regw (BitVec.ofNat 8 (w / 2 ^ 32)) (BitVec.ofNat 32 w))
  | 8 => if w % 4 ≠ 0 ∧ w < 8 then some (.seq (BitVec.ofNat 3 w)) else some (.regr (BitVec.ofNat 8 w))
  | 32 => some (.packedWord (BitVec.ofNat 32 w))
  | 16 => some (.normSample (BitVec.ofNat 16 w))
  | 0 => some .reset
  | _ => none

/-- The operation the decoder reads from a row's bits (log 15). -/
def decodeTableWord (nbits w : Nat) : Option Instr :=
  match encodedOfTable nbits w with
  | some e => (decode e).toOption
  | none => none

end Sys2Proof
end

