-- ==== Sys2Proof/Config.lean ====
section
/-! DEFINITION. What an implementation fixes (00_scope.md R7) and the values the spec leaves open
(93_implementation_defined.md U4, U5).

The four sizes are arguments of the model (00_scope.md R7, decision D11): a record that State carries
and that no event changes (log 1), so a statement about every state is a statement about every
implementation.  The open values are constants with no body: nothing can be proved of them beyond
their width, so a statement holds whatever they are (log 4, log 6).  They are functions of a draw number
and an address or index, and of no instance: DESIGN CHOICE (log 24), since the spec does not say how the
unspecified values of two instances are related (60_exceptions.md R173). -/

namespace Sys2Proof

/-- The implementation parameters (00_scope.md R7). -/
structure Params where
  /-- `W_MAX`: the largest word width the datapath carries, in bits. -/
  wMax : Nat
  /-- `O_MAX`: the width of an `OUT` cell, in bits. -/
  oMax : Nat
  /-- `IN_SIZE`: the capacity of `IN`, in bytes. -/
  inSize : Nat
  /-- `OUT_SIZE`: the capacity of `OUT`, in cells. -/
  outSize : Nat
  deriving DecidableEq, Repr

/-- The constraints of 00_scope.md R7 on the four sizes. -/
def Params.wf (p : Params) : Bool :=
  decide (p.wMax % 8 = 0 ∧ 32 ≤ p.wMax) && decide (16 ≤ p.oMax) &&
  decide (1 ≤ p.inSize ∧ p.inSize ≤ 2 ^ 32 - 1) && decide (1 ≤ p.outSize ∧ p.outSize ≤ 2 ^ 32)

/-- The sizes 92_eei_decisions.md D11 suggests "for a model that wants concrete ones".
DESIGN CHOICE (log 1): `State.reset` is the reset state of this implementation. -/
def Params.suggested : Params :=
  { wMax := 64, oMax := 32, inSize := 2 ^ 24, outSize := 2 ^ 22 }

/-- FREE VALUE (93 U5, log 4): the byte that `IN` holds at an address after the reset numbered `draw`.
DESIGN CHOICE (log 24): the same in every instance whose reset has that number. -/
opaque Config.freeInByte (draw address : Nat) : Byte

/-- FREE VALUE (93 U5, log 4): the `width`-bit cell that `OUT` holds at an index after the reset
numbered `draw`.  DESIGN CHOICE (log 24): the same in every instance whose reset has that number. -/
opaque Config.freeOutCell (draw index width : Nat) : BitVec width

/-- FREE VALUE (93 U5, log 4): what the `width`-bit latch `WORD` holds after the reset numbered `draw`.
DESIGN CHOICE (log 24): the same in every instance whose reset has that number. -/
opaque Config.freeWord (draw width : Nat) : BitVec width

/-- FREE VALUE (93 U4, log 6): what the `RDOUT` numbered `draw` returns when no cell is readable.
DESIGN CHOICE (log 24): the same in every instance whose read has that number. -/
opaque Config.freeRead (draw width : Nat) : BitVec width

end Sys2Proof
end

