-- ==== Sys2Proof/Machine/State.lean ====
section
/-! DEFINITION. The state of one instance of the block (10_state.md R20), why a step can stop, and the
state after reset (10_state.md R40). -/

namespace Sys2Proof.Machine

/-- `STATUS.STATE` (10_state.md R30). -/
inductive SeqState where
  | idle
  | busy
  | done
  | error
  deriving DecidableEq, Repr

/-- `STATUS.ERR` (10_state.md R31). -/
inductive ErrCode where
  | none
  | malformedInput
  | dimensionMismatch
  | badConfig
  deriving DecidableEq, Repr

/-- `PHASE` (10_state.md R32): which half of `BUSY` the sequencer is in. -/
inductive Phase where
  | check
  | run
  deriving DecidableEq, Repr

/-- The seven configuration registers (10_state.md R21 to R27). -/
structure Cfg where
  w : Reg32
  b : Reg32
  s : Reg32
  o : Reg32
  width : Reg32
  height : Reg32
  len : Reg32
  deriving DecidableEq, Repr

/-- What one micro-operation of a `RUN` step hands to the next: the `raw`, `x` and `y` of
43_sequencer.md R124.  The MODEL's own (log 8): wires in the block, no state of the spec. -/
structure DataPath where
  raw : Nat
  x : Nat
  y : Nat
  deriving DecidableEq, Repr

/-- What a read returns to the host: a register (44_host_interface.md R142) or a cell (R148). -/
inductive Response where
  | register (rdata : Reg32)
  | cell (rdata : Nat)
  deriving DecidableEq, Repr

/-- The state of 10_state.md R20.  `CMD` stores nothing (R28) and has no field; `STATUS` is its two
fields (R29, log 13).  `params` is the model's argument (R41, log 1); the fields after `outMem` are the
model's own. -/
structure State where
  /-- `W_MAX`, `O_MAX`, `IN_SIZE`, `OUT_SIZE` (R41): no event changes them. -/
  params : Params
  /-- `CFG_W` .. `CFG_LEN` (R21 to R27). -/
  cfg : Cfg
  /-- `STATUS.STATE` (R30). -/
  state : SeqState
  /-- `STATUS.ERR` (R31). -/
  err : ErrCode
  /-- `PHASE` (R32). -/
  phase : Phase
  /-- `WIDX` (R33). -/
  widx : BitVec 32
  /-- `KIDX` (R33). -/
  kidx : BitVec 32
  /-- `OIDX` (R33). -/
  oidx : BitVec 33
  /-- `WORD` (R35), a value of `W_MAX` bits (log 17). -/
  word : Nat
  /-- `IN` (R36): the bytes written since the last reset, by rising address (log 5). -/
  inMem : List Host.Cell
  /-- `OUT` (R37): the cells written since the last reset, by rising index (log 5). -/
  outMem : List (Nat × Nat)
  /-- The draw that the unwritten contents of `IN` and `OUT` come from (log 4). -/
  epoch : Nat
  /-- The number of the next draw (log 4, log 6). -/
  draws : Nat
  /-- The wires of a `RUN` step (log 8). -/
  path : DataPath
  /-- The events still to come (log 2). -/
  pending : List Event
  /-- The last value a read returned (log 7). -/
  response : Option Response
  deriving DecidableEq, Repr

/-- Why the machine stops.  No state that meets `Safety.Inv` reaches one of these. -/
inductive Fault where
  /-- `FETCHW` asks for a byte at or above `IN_SIZE`, which 20_memory.md R50 says does not exist.
  Raised by `RUN` and `FETCHW` in states that no run reaches.  Safe. -/
  | inAddressAbsent
  /-- `STORE` asks for a cell at or above `OUT_SIZE`, which 20_memory.md R50 says does not exist.
  Raised by `RUN` and `STORE` in states that no run reaches.  Safe. -/
  | outCellAbsent
  /-- `BUSY`/`RUN` under a configuration that `CFGCHK` rejects: "It may not give such a decode a grid"
  (93_implementation_defined.md U1).  Raised by `RUN` and its parts in states that no run reaches.  Safe. -/
  | configNotLegal
  deriving DecidableEq, Repr

/-- Why the model gives no meaning. -/
inductive Refusal where
  /-- Raised by `exec` for an operation that has no meaning yet.  Safe. -/
  | notModelled (mnemonic : String)
  /-- Raised by the two data-format rows: "Data format, not an operation" (opcode_table.json; log 16).
  Safe. -/
  | dataFormat (mnemonic : String)
  /-- Raised by `step` on a 16-bit data word that is no normalized sample (30_encoding.md R75; log 16).
  Safe. -/
  | notASample
  deriving DecidableEq, Repr

/-- The state after a reset (10_state.md R40), whose unspecified contents are drawn at number `draw`
(log 4).  The model's own fields: no wires driven, nothing pending, nothing returned. -/
def State.powerUp (params : Params) (draw : Nat) : State :=
  { params := params
    cfg := { w := 32, b := 10, s := 3, o := 16, width := 1314, height := 1048, len := 0 }
    state := .idle
    err := .none
    phase := .check
    widx := 0
    kidx := 0
    oidx := 0
    word := (Config.freeWord draw params.wMax).toNat
    inMem := []
    outMem := []
    epoch := draw
    draws := draw + 1
    path := { raw := 0, x := 0, y := 0 }
    pending := []
    response := none }

/-- The machine right after its first reset, for the suggested implementation (log 1). -/
def State.reset : State := State.powerUp Params.suggested 0

end Sys2Proof.Machine
end

