-- ==== Sys2Proof/Machine/Operands.lean ====
section
/-! DEFINITION. The pure functions of 00_scope.md section 6: how each operand is put together from bits
(30_encoding.md R81), the three stages as functions, and the grid.  All arithmetic is on naturals and
exact (00_scope.md R11). -/

namespace Sys2Proof.Machine

/-- `sum over i in [0, n) of f i`. -/
def sumBelow (n : Nat) (f : Nat → Nat) : Nat :=
  match n with
  | 0 => 0
  | k + 1 => sumBelow k f + f k

/-- `v[i]`, bit `i` of `v` (00_scope.md R10). -/
def bit (v i : Nat) : Nat := (v.testBit i).toNat

/-! Derived quantities of a configuration (00_scope.md R4). -/

/-- `wb = W / 8`. -/
def Cfg.wb (c : Cfg) : Nat := c.w.toNat / 8

/-- `NW = LEN / wb`. -/
def Cfg.nw (c : Cfg) : Nat := c.len.toNat / c.wb

/-- `NS = NW * S`. -/
def Cfg.ns (c : Cfg) : Nat := c.nw * c.s.toNat

/-- `N = width * height`. -/
def Cfg.n (c : Cfg) : Nat := c.width.toNat * c.height.toNat

/-- The row of a cell: `OIDX / width` (10_state.md R34). -/
def Cfg.rowOf (c : Cfg) (p : Nat) : Nat := p / c.width.toNat

/-- The column of a cell: `OIDX mod width` (10_state.md R34). -/
def Cfg.colOf (c : Cfg) (p : Nat) : Nat := p % c.width.toNat

/-! The sample extractor. -/

/-- `WordAt(IN, i)`: little-endian, `wb` bytes from address `i * wb` (20_memory.md R51). -/
def wordAt (wb : Nat) (inp : Nat → Byte) (i : Nat) : Nat :=
  sumBelow wb fun j => (inp (i * wb + j)).toNat * 2 ^ (8 * j)

/-- `Extract(word, k) = (word >> (k*B)) & ((1 << B) - 1)` (40_sample_extractor.md R92). -/
def extractSample (b word k : Nat) : Nat := (word >>> (k * b)) &&& ((1 <<< b) - 1)

/-- Sample `p` of the stream: word `p / S`, sub-sample `p mod S` (40_sample_extractor.md R93). -/
def rawAt (c : Cfg) (inp : Nat → Byte) (p : Nat) : Nat :=
  extractSample c.b.toNat (wordAt c.wb inp (p / c.s.toNat)) (p % c.s.toNat)

/-- `RawSeq(IN, LEN)` (40_sample_extractor.md R96). -/
def rawSeq (c : Cfg) (inp : Nat → Byte) : List Nat := (List.range c.ns).map (rawAt c inp)

/-- `PackWord(r) = sum over k of r[k] * 2^(k*B)`, padding bits 0 (40_sample_extractor.md R97). -/
def packWord (b : Nat) (r : List Nat) : Nat := sumBelow r.length fun k => r.getD k 0 * 2 ^ (k * b)

/-- A word as `wb` little-endian bytes (40_sample_extractor.md R97). -/
def wordBytes (wb word : Nat) : List Byte :=
  (List.range wb).map fun j => BitVec.ofNat 8 (word >>> (8 * j))

/-- `Pack` of `groups` whole groups of `s` samples (40_sample_extractor.md R97). -/
def packGroups (b s wb : Nat) (groups : Nat) (r : List Nat) : List Byte :=
  match groups with
  | 0 => []
  | g + 1 => wordBytes wb (packWord b (r.take s)) ++ packGroups b s wb g (r.drop s)

/-! The bit-reversal normalizer. -/

/-- `zext_O(raw)`: bit `i` is `raw[i]` below `B` and 0 from `B` to `O - 1`
(41_bit_reversal_normalizer.md R100). -/
def zeroExtend (b o raw : Nat) : Nat :=
  sumBelow o fun i => (if i < b then bit raw i else 0) * 2 ^ i

/-- `BitRev_N(x) = sum over i in [0, N) of x[i] * 2^(N-1-i)` (41_bit_reversal_normalizer.md R101). -/
def bitRev (n x : Nat) : Nat := sumBelow n fun i => bit x i * 2 ^ (n - 1 - i)

/-- `Normalize(raw) = BitRev_O(zext_O(raw))` (41_bit_reversal_normalizer.md R101). -/
def normalizeSample (b o raw : Nat) : Nat := bitRev o (zeroExtend b o raw)

/-- Element `p` of `NormSeq` (41_bit_reversal_normalizer.md R106). -/
def normAt (c : Cfg) (inp : Nat → Byte) (p : Nat) : Nat :=
  normalizeSample c.b.toNat c.o.toNat (rawAt c inp p)

/-- `NormSeq(IN, LEN)`: the element-wise map of `RawSeq` (41_bit_reversal_normalizer.md R106). -/
def normSeq (c : Cfg) (inp : Nat → Byte) : List Nat :=
  (rawSeq c inp).map (normalizeSample c.b.toNat c.o.toNat)

/-! The raster assembler. -/

/-- `Grid`: "slicing the NormalizedSample sequence into `height` contiguous rows of `width` elements
each" (42_raster_assembler.md R113, 30_encoding.md R76). -/
def grid (width height : Nat) (seq : List Nat) : List (List Nat) :=
  (List.range height).map fun r => (seq.drop (r * width)).take width

end Sys2Proof.Machine
end

