-- ==== Sys2Proof/Machine/Checks.lean ====
section
/-! DEFINITION. The conditions of the `CHECK` step (43_sequencer.md R122, R123), and the whole-frame
function they guard (R128).  Every product and comparison is exact (00_scope.md R11). -/

namespace Sys2Proof.Machine

/-- `CFGCHK` fails: one of the eight conditions of 43_sequencer.md R123, in the table's order. -/
def cfgFails (p : Params) (c : Cfg) : Bool :=
  decide (
    (c.w.toNat = 0 ∨ c.w.toNat % 8 ≠ 0 ∨ c.w.toNat > p.wMax) ∨
    (c.b.toNat = 0 ∨ c.s.toNat = 0) ∨
    c.s.toNat * c.b.toNat > c.w.toNat ∨
    c.b.toNat > c.o.toNat ∨
    c.o.toNat > p.oMax ∨
    (c.width.toNat = 0 ∨ c.height.toNat = 0) ∨
    c.width.toNat * c.height.toNat > p.outSize ∨
    c.len.toNat > p.inSize)

/-- `LENCHK` fails: a trailing partial word (40_sample_extractor.md R94).  Asked only after `CFGCHK`
has passed, so `wb` is not 0. -/
def lenFails (c : Cfg) : Bool := decide (c.len.toNat % c.wb ≠ 0)

/-- `DIMCHK` fails: `NS ≠ N` (42_raster_assembler.md R111).  Asked only after `LENCHK` has passed. -/
def dimFails (c : Cfg) : Bool := decide (c.ns ≠ c.n)

/-- The error a `CHECK` step reports, if any: the first in the order of 60_exceptions.md R164. -/
def checkError (p : Params) (c : Cfg) : Option ErrCode :=
  if cfgFails p c then some .badConfig
  else if lenFails c then some .malformedInput
  else if dimFails c then some .dimensionMismatch
  else none

/-- `Decode(cfg, IN)`, the whole-frame function (43_sequencer.md R128). -/
def decodeFrame (p : Params) (c : Cfg) (inp : Nat → Byte) : Except ErrCode (List (List Nat)) :=
  match checkError p c with
  | some e => .error e
  | none => .ok (grid c.width.toNat c.height.toNat (normSeq c inp))

end Sys2Proof.Machine
end

