-- ==== Sys2Proof/Machine/Flags.lean ====
section
/-! DEFINITION. The codes of `STATUS` and of the sequencer (10_state.md R29 to R32, 30_encoding.md R80). -/

namespace Sys2Proof.Machine

/-- The code of `STATUS.STATE` (10_state.md R30). -/
def SeqState.code : SeqState → BitVec 2
  | .idle => 0
  | .busy => 1
  | .done => 2
  | .error => 3

/-- The code of `STATUS.ERR` (10_state.md R31). -/
def ErrCode.code : ErrCode → BitVec 2
  | .none => 0
  | .malformedInput => 1
  | .dimensionMismatch => 2
  | .badConfig => 3

/-- The code of `PHASE` (10_state.md R32). -/
def Phase.code : Phase → BitVec 1
  | .check => 0
  | .run => 1

/-- `STATUS` as the host reads it: `ERR` in bits 3:2, `STATE` in bits 1:0, 0 above
(10_state.md R29, 44_host_interface.md R142). -/
def statusWord (s : State) : Reg32 := 0#28 ++ s.err.code ++ s.state.code

/-- `sel = {STATE[1:0], PHASE}` (30_encoding.md R80). -/
def selOf (s : State) : BitVec 3 := s.state.code ++ s.phase.code

/-- The `sel` of the `CHECK` step (30_encoding.md R80). -/
abbrev checkSel : BitVec 3 := 0b010

/-- The `sel` of the `RUN` step (30_encoding.md R80). -/
abbrev runSel : BitVec 3 := 0b011

end Sys2Proof.Machine
end

