-- ==== Sys2Proof/Machine/Ops.lean ====
section
/-! DEFINITION. The named operations over memory, registers and status that the meanings share:
memory cells, error entry and return, the answer to a read, free values, reset, the selection of the
decoder's step, and which event comes next. -/

namespace Sys2Proof.Machine

/-- The outcome of one operation. -/
abbrev Result := Host.Outcome State Fault Refusal

/-- One operation after another; a stop ends the sequence. -/
def andThen (r : Result) (f : State → Result) : Result :=
  match r with
  | .next s => f s
  | .fault e => .fault e
  | .refused e => .refused e

/-! Memory: a list of (address, value) pairs, addresses strictly rising (log 5). -/

/-- The value listed at an address, if any. -/
def Memory.get {α : Type} : List (Nat × α) → Nat → Option α
  | [], _ => none
  | (b, v) :: m, a => if a = b then some v else Memory.get m a

/-- The list with a value written at an address. -/
def Memory.set {α : Type} : List (Nat × α) → Nat → α → List (Nat × α)
  | [], a, v => [(a, v)]
  | (b, u) :: m, a, v =>
    if a < b then (a, v) :: (b, u) :: m
    else if a = b then (a, v) :: m
    else (b, u) :: Memory.set m a v

/-- The canonical form: addresses strictly rising.  An unlisted address has no value of its own
(it reads as a free value), so no entry can equal it (log 5). -/
def Memory.wf {α : Type} : List (Nat × α) → Bool
  | [] => true
  | (a, _) :: m => m.all (fun e => decide (a < e.1)) && Memory.wf m

/-- Every listed address lies below a size. -/
def Memory.below {α : Type} (size : Nat) (m : List (Nat × α)) : Bool :=
  m.all fun e => decide (e.1 < size)

/-- `IN[a]` (10_state.md R36): the byte written there since the last reset, else the free value that
reset left (93 U5, log 4). -/
def inByte (s : State) (a : Nat) : Byte :=
  match Memory.get s.inMem a with
  | some v => v
  | none => Config.freeInByte s.epoch a

/-- `OUT[i]` (10_state.md R37): the cell written there since the last reset, else the free value that
reset left (93 U5, log 4). -/
def outCell (s : State) (i : Nat) : Nat :=
  match Memory.get s.outMem i with
  | some v => v
  | none => (Config.freeOutCell s.epoch i s.params.oMax).toNat

/-- `IN[a] <- b`. -/
def setIn (a : Nat) (b : Byte) (s : State) : State := { s with inMem := Memory.set s.inMem a b }

/-- `OUT[i] <- v` (00_scope.md R10, `MemWrite`). -/
def setOut (i v : Nat) (s : State) : State := { s with outMem := Memory.set s.outMem i v }

/-! Registers. -/

/-- A write to a configuration register takes effect only in `IDLE` (44_host_interface.md R141,
20_memory.md R59). -/
def writeCfg (f : Cfg → Cfg) (s : State) : State :=
  if s.state = .idle then { s with cfg := f s.cfg } else s

/-- A read answers the host and changes nothing else (44_host_interface.md R142, log 7). -/
def respond (r : Response) (s : State) : State := { s with response := some r }

/-- `RDOUT` with no readable cell: a fresh value, never the same draw twice (44_host_interface.md R148,
log 6). -/
def respondAny (s : State) : State :=
  { s with response := some (.cell (Config.freeRead s.draws s.params.oMax).toNat), draws := s.draws + 1 }

/-! Errors. -/

/-- `raise E` (60_exceptions.md R165): `STATE` and `ERR`, nothing else. -/
def raise (e : ErrCode) (s : State) : State := { s with state := .error, err := e }

/-- The return from an error, and from success (60_exceptions.md R167, 44_host_interface.md R145). -/
def acknowledge (s : State) : State := { s with state := .idle, err := .none }

/-! Reset. -/

/-- Every element of state takes its reset value (44_host_interface.md R149); the unspecified contents
come from a fresh draw (log 4).  The host's side of the model stays: its events, its last answer, and
the wires no operation reads before writing (log 23). -/
def resetState (s : State) : State :=
  { State.powerUp s.params s.draws with
    path := s.path, pending := s.pending, response := s.response }

/-! The decoder's step. -/

/-- An operation of the `CHECK` step: selected by `sel = 0b010`, else the decoder does not do it
(30_encoding.md R80, log 9). -/
def inCheck (f : State → State) (s : State) : State :=
  if selOf s = checkSel then f s else s

/-- An operation of the `RUN` step: selected by `sel = 0b011`, else the decoder does not do it
(30_encoding.md R80, log 9).  `CHECK` has found the configuration legal (10_state.md R39); without
that there is no grid to give (93 U1, log 10). -/
def inRun (f : State → Result) (s : State) : Result :=
  if selOf s = runSel then
    if cfgFails s.params s.cfg then .fault .configNotLegal else f s
  else .next s

/-! Which event comes next (log 2). -/

/-- The event of this step and the state that awaits the ones after it: the first pending event, or,
when none is pending, the decoder's step. -/
def nextEvent (s : State) : Event × State :=
  match s.pending with
  | [] => (.step, s)
  | e :: rest => (e, { s with pending := rest })

/-- The word an event gives the decoder: the host's own, or for a decoder step the sequencer's
selection (30_encoding.md R80). -/
def eventWord (e : Event) (s : State) : Encoded :=
  match e with
  | .bus w => w
  | .step => .seq (selOf s)

/-- What a word that is no operation does: at no address of the block it "is not delivered to it and
changes nothing" (20_memory.md R57, log 14); with no step selected the decoder waits
(43_sequencer.md R127); a data word that is no sample is refused (log 16). -/
def rejected (e : DecodeError) (s : State) : Result :=
  match e with
  | .notAnAddress => .next s
  | .noStep => .next s
  | .notASample => .refused .notASample

/-- The state in which a word is the next event.  A `SEQ` word is not sent but selected, so the
sequencer is put where it selects it (log 3). -/
def placeWord (e : Encoded) (s : State) : State :=
  match e with
  | .seq sel =>
    if sel = checkSel then { s with state := .busy, phase := .check, pending := .step :: s.pending }
    else if sel = runSel then { s with state := .busy, phase := .run, pending := .step :: s.pending }
    else { s with pending := .bus e :: s.pending }
  | _ => { s with pending := .bus e :: s.pending }

end Sys2Proof.Machine
end

