-- ==== Sys2Proof/Machine/Commands.lean ====
section
/-! DEFINITION. Commands and reset (44_host_interface.md R143 to R146, R149). -/

namespace Sys2Proof.Machine

/-- `NOP` (R143). -/
def execNop (s : State) : Result := .next s

/-- `START` (R144): accepted only in `IDLE`; sets the counters afresh and validates nothing. -/
def execStart (s : State) : Result :=
  .next (if s.state = .idle then
    { s with state := .busy, phase := .check, widx := 0, kidx := 0, oidx := 0 }
  else s)

/-- `CLEAR` (R145): accepted only in `DONE` and `ERROR`. -/
def execClear (s : State) : Result :=
  .next (if s.state = .done ∨ s.state = .error then acknowledge s else s)

/-- A reserved command (R146). -/
def execCmdReserved (_v : Reg32) (s : State) : Result := .next s

/-- `RESET` (R149), enabled in every state. -/
def execReset (s : State) : Result := .next (resetState s)

end Sys2Proof.Machine
end

