-- ==== Sys2Proof/Machine/DataFormats.lean ====
section
/-! DEFINITION. The two data-format rows.  opcode_table.json: "Data format, not an operation"; state
changes only by a transaction, a decoder step or reset (43_sequencer.md R120).  What the formats MEAN
is in Decode.lean (R72, R75) and Operands.lean (R71, R101). -/

namespace Sys2Proof.Machine

/-- `PACKEDWORD.default` is no operation (30_encoding.md R72, log 16). -/
def execPackedwordDefault (_pad : BitVec 2) (_sample2 _sample1 _sample0 : BitVec 10) (_s : State) : Result :=
  .refused (.dataFormat "PACKEDWORD.default")

/-- `NORMSAMPLE.default` is no operation (30_encoding.md R75, log 16). -/
def execNormsampleDefault (_raw : BitVec 10) (_s : State) : Result :=
  .refused (.dataFormat "NORMSAMPLE.default")

end Sys2Proof.Machine
end

