-- ==== Sys2Proof/Machine/HostMemory.lean ====
section
/-! DEFINITION. Memory transactions (44_host_interface.md R147, R148). -/

namespace Sys2Proof.Machine

/-- `WRIN a, b` (R147). -/
def execWrin (a : BitVec 32) (b : Byte) (s : State) : Result :=
  .next (if s.state = .idle ∧ a.toNat < s.params.inSize then setIn a.toNat b s else s)

/-- `RDOUT i` (R148): the cell in `DONE` below `width * height`, else an unspecified value. -/
def execRdout (i : BitVec 32) (s : State) : Result :=
  .next (if s.state = .done ∧ i.toNat < s.cfg.n then respond (.cell (outCell s i.toNat)) s
    else respondAny s)

end Sys2Proof.Machine
end

