-- ==== Sys2Proof/Machine/Registers.lean ====
section
/-! DEFINITION. Register transactions: `WRREG`, `RDREG`, and the writes and reads that have no effect
(44_host_interface.md R141, R142; 20_memory.md R57). -/

namespace Sys2Proof.Machine

/-- `WRREG CFG_W, v` (R141). -/
def execWrregCfgW (v : Reg32) (s : State) : Result := .next (writeCfg (fun c => { c with w := v }) s)

/-- `WRREG CFG_B, v` (R141). -/
def execWrregCfgB (v : Reg32) (s : State) : Result := .next (writeCfg (fun c => { c with b := v }) s)

/-- `WRREG CFG_S, v` (R141). -/
def execWrregCfgS (v : Reg32) (s : State) : Result := .next (writeCfg (fun c => { c with s := v }) s)

/-- `WRREG CFG_O, v` (R141). -/
def execWrregCfgO (v : Reg32) (s : State) : Result := .next (writeCfg (fun c => { c with o := v }) s)

/-- `WRREG CFG_WIDTH, v` (R141). -/
def execWrregCfgWidth (v : Reg32) (s : State) : Result :=
  .next (writeCfg (fun c => { c with width := v }) s)

/-- `WRREG CFG_HEIGHT, v` (R141). -/
def execWrregCfgHeight (v : Reg32) (s : State) : Result :=
  .next (writeCfg (fun c => { c with height := v }) s)

/-- `WRREG CFG_LEN, v` (R141). -/
def execWrregCfgLen (v : Reg32) (s : State) : Result :=
  .next (writeCfg (fun c => { c with len := v }) s)

/-- A write to `STATUS` is ignored in every state (R141, 10_state.md R29). -/
def execWrstatus (_v : Reg32) (s : State) : Result := .next s

/-- A write at a reserved offset has no effect (20_memory.md R57). -/
def execRegwReserved (_offset : Offset) (_v : Reg32) (s : State) : Result := .next s

/-- `RDREG CMD` returns 0 (R142, 10_state.md R28). -/
def execRdregCmd (s : State) : Result := .next (respond (.register 0) s)

/-- `RDREG STATUS` (R142). -/
def execRdregStatus (s : State) : Result := .next (respond (.register (statusWord s)) s)

/-- `RDREG CFG_W` (R142). -/
def execRdregCfgW (s : State) : Result := .next (respond (.register s.cfg.w) s)

/-- `RDREG CFG_B` (R142). -/
def execRdregCfgB (s : State) : Result := .next (respond (.register s.cfg.b) s)

/-- `RDREG CFG_S` (R142). -/
def execRdregCfgS (s : State) : Result := .next (respond (.register s.cfg.s) s)

/-- `RDREG CFG_O` (R142). -/
def execRdregCfgO (s : State) : Result := .next (respond (.register s.cfg.o) s)

/-- `RDREG CFG_WIDTH` (R142). -/
def execRdregCfgWidth (s : State) : Result := .next (respond (.register s.cfg.width) s)

/-- `RDREG CFG_HEIGHT` (R142). -/
def execRdregCfgHeight (s : State) : Result := .next (respond (.register s.cfg.height) s)

/-- `RDREG CFG_LEN` (R142). -/
def execRdregCfgLen (s : State) : Result := .next (respond (.register s.cfg.len) s)

/-- A read at a reserved offset returns 0 (20_memory.md R57). -/
def execRegrReserved (_offset : Offset) (s : State) : Result := .next (respond (.register 0) s)

end Sys2Proof.Machine
end

