-- ==== Sys2Proof/Machine/Assembler.lean ====
section
/-! DEFINITION. The raster assembler's operations: `DIMCHK` and `STORE`
(42_raster_assembler.md R111, R112). -/

namespace Sys2Proof.Machine

/-- `DIMCHK` in its place in the `CHECK` step: made once `CFGCHK` and `LENCHK` have passed
(R111, 43_sequencer.md R122). -/
def dimchkStage (s : State) : State :=
  if cfgFails s.params s.cfg || lenFails s.cfg then s
  else if dimFails s.cfg then raise .dimensionMismatch s
  else s

/-- `STORE` in its place in the `RUN` step: `OUT[OIDX] <- y` (R112). -/
def storeStage (s : State) : Result :=
  if s.oidx.toNat < s.params.outSize then .next (setOut s.oidx.toNat s.path.y s)
  else .fault .outCellAbsent

/-- `DIMCHK` (R111). -/
def execDimchk (s : State) : Result := .next (inCheck dimchkStage s)

/-- `STORE` (R112). -/
def execStore (s : State) : Result := inRun storeStage s

end Sys2Proof.Machine
end

