-- ==== Sys2Proof/Machine/Extractor.lean ====
section
/-! DEFINITION. The sample extractor's operations: `LENCHK`, `FETCHW`, `EXTRACT`
(40_sample_extractor.md R91, R92, R94). -/

namespace Sys2Proof.Machine

/-- `FETCHW` in its place in the `RUN` step: at the first sample of a word, `WORD <- WordAt(IN, WIDX)`
(R91, 43_sequencer.md R124). -/
def fetchStage (s : State) : Result :=
  if s.kidx = 0 then
    if s.widx.toNat * s.cfg.wb + s.cfg.wb ≤ s.params.inSize then
      .next { s with word := wordAt s.cfg.wb (inByte s) s.widx.toNat }
    else .fault .inAddressAbsent
  else .next s

/-- `EXTRACT` in its place in the `RUN` step: `raw = Extract(WORD, KIDX)` (R92). -/
def extractStage (s : State) : State :=
  { s with path := { s.path with raw := extractSample s.cfg.b.toNat s.word s.kidx.toNat } }

/-- `LENCHK` in its place in the `CHECK` step: made once `CFGCHK` has passed (R94, 43_sequencer.md R122). -/
def lenchkStage (s : State) : State :=
  if cfgFails s.params s.cfg then s
  else if lenFails s.cfg then raise .malformedInput s
  else s

/-- `FETCHW` (R91). -/
def execFetchw (s : State) : Result := inRun fetchStage s

/-- `EXTRACT` (R92). -/
def execExtract (s : State) : Result := inRun (fun s => .next (extractStage s)) s

/-- `LENCHK` (R94). -/
def execLenchk (s : State) : Result := .next (inCheck lenchkStage s)

end Sys2Proof.Machine
end

