-- ==== Sys2Proof/Machine/Normalizer.lean ====
section
/-! DEFINITION. The bit-reversal normalizer's operations: `ZEXT` and `BITREV`
(41_bit_reversal_normalizer.md R100, R101). -/

namespace Sys2Proof.Machine

/-- `ZEXT` in its place in the `RUN` step: `x = zext_O(raw)` (R100). -/
def zextStage (s : State) : State :=
  { s with path := { s.path with x := zeroExtend s.cfg.b.toNat s.cfg.o.toNat s.path.raw } }

/-- `BITREV` in its place in the `RUN` step: `y = BitRev_O(x)` (R101). -/
def bitrevStage (s : State) : State :=
  { s with path := { s.path with y := bitRev s.cfg.o.toNat s.path.x } }

/-- `ZEXT` (R100). -/
def execZext (s : State) : Result := inRun (fun s => .next (zextStage s)) s

/-- `BITREV` (R101). -/
def execBitrev (s : State) : Result := inRun (fun s => .next (bitrevStage s)) s

end Sys2Proof.Machine
end

