-- ==== Sys2Proof/Machine/Sequencer.lean ====
section
/-! DEFINITION. The sequencer: the `CHECK` and `RUN` steps and the parts that belong to no stage
(43_sequencer.md R122 to R126). -/

namespace Sys2Proof.Machine

/-- `CFGCHK` in its place in the `CHECK` step (R123). -/
def cfgchkStage (s : State) : State :=
  if cfgFails s.params s.cfg then raise .badConfig s else s

/-- The `CHECK` step (R122): the first failing check raises its error, else `PHASE <- RUN`. -/
def checkStep (s : State) : State :=
  if cfgFails s.params s.cfg then raise .badConfig s
  else if lenFails s.cfg then raise .malformedInput s
  else if dimFails s.cfg then raise .dimensionMismatch s
  else { s with phase := .run }

/-- `ADVANCE` in its place in the `RUN` step (R125). -/
def advanceStage (s : State) : State :=
  { s with
    oidx := s.oidx + 1
    kidx := if s.kidx.toNat + 1 = s.cfg.s.toNat then 0 else s.kidx + 1
    widx := if s.kidx.toNat + 1 = s.cfg.s.toNat then s.widx + 1 else s.widx }

/-- `FINISH` in its place in the `RUN` step: when `ADVANCE` has brought `OIDX` to `N` (R126). -/
def finishStage (s : State) : State :=
  { s with state := if s.oidx.toNat = s.cfg.n then .done else s.state }

/-- The `RUN` step (R124): `FETCHW` if `KIDX = 0`, `EXTRACT`, `ZEXT`, `BITREV`, `STORE`, `ADVANCE`, and
`FINISH` if that was the last sample. -/
def runStep (s : State) : Result :=
  andThen (fetchStage s) fun s1 =>
    andThen (storeStage (bitrevStage (zextStage (extractStage s1)))) fun s2 =>
      .next (finishStage (advanceStage s2))

/-- `CHECK` (R122). -/
def execCheck (s : State) : Result := .next (inCheck checkStep s)

/-- `CFGCHK` (R123). -/
def execCfgchk (s : State) : Result := .next (inCheck cfgchkStage s)

/-- `RUN` (R124). -/
def execRun (s : State) : Result := inRun runStep s

/-- `ADVANCE` (R125). -/
def execAdvance (s : State) : Result := inRun (fun s => .next (advanceStage s)) s

/-- `FINISH` (R126). -/
def execFinish (s : State) : Result := inRun (fun s => .next (finishStage s)) s

end Sys2Proof.Machine
end

