-- ==== Sys2Proof/Machine/Dispatch.lean ====
section
/-! DEFINITION. `exec`: one arm for each operation, each a call of its meaning. -/

namespace Sys2Proof.Machine

def exec (i : Instr) (s : State) : Host.Outcome State Fault Refusal :=
  match i with
  -- commands (44_host_interface.md section 3)
  | .nop => Sys2Proof.Machine.execNop s
  | .start => Sys2Proof.Machine.execStart s
  | .clear => Sys2Proof.Machine.execClear s
  | .cmdReserved v => Sys2Proof.Machine.execCmdReserved v s
  -- register transactions (section 2)
  | .wrstatus v => Sys2Proof.Machine.execWrstatus v s
  | .wrregCfgW v => Sys2Proof.Machine.execWrregCfgW v s
  | .wrregCfgB v => Sys2Proof.Machine.execWrregCfgB v s
  | .wrregCfgS v => Sys2Proof.Machine.execWrregCfgS v s
  | .wrregCfgO v => Sys2Proof.Machine.execWrregCfgO v s
  | .wrregCfgWidth v => Sys2Proof.Machine.execWrregCfgWidth v s
  | .wrregCfgHeight v => Sys2Proof.Machine.execWrregCfgHeight v s
  | .wrregCfgLen v => Sys2Proof.Machine.execWrregCfgLen v s
  | .regwReserved o v => Sys2Proof.Machine.execRegwReserved o v s
  | .rdregCmd => Sys2Proof.Machine.execRdregCmd s
  | .rdregStatus => Sys2Proof.Machine.execRdregStatus s
  | .rdregCfgW => Sys2Proof.Machine.execRdregCfgW s
  | .rdregCfgB => Sys2Proof.Machine.execRdregCfgB s
  | .rdregCfgS => Sys2Proof.Machine.execRdregCfgS s
  | .rdregCfgO => Sys2Proof.Machine.execRdregCfgO s
  | .rdregCfgWidth => Sys2Proof.Machine.execRdregCfgWidth s
  | .rdregCfgHeight => Sys2Proof.Machine.execRdregCfgHeight s
  | .rdregCfgLen => Sys2Proof.Machine.execRdregCfgLen s
  | .regrReserved o => Sys2Proof.Machine.execRegrReserved o s
  -- memory transactions (section 4) and reset (section 5)
  | .wrin a b => Sys2Proof.Machine.execWrin a b s
  | .rdout idx => Sys2Proof.Machine.execRdout idx s
  | .reset => Sys2Proof.Machine.execReset s
  -- the CHECK step and its parts (43_sequencer.md section 3)
  | .check => Sys2Proof.Machine.execCheck s
  | .cfgchk => Sys2Proof.Machine.execCfgchk s
  | .lenchk => Sys2Proof.Machine.execLenchk s
  | .dimchk => Sys2Proof.Machine.execDimchk s
  -- the RUN step and its parts (43_sequencer.md section 4)
  | .run => Sys2Proof.Machine.execRun s
  | .fetchw => Sys2Proof.Machine.execFetchw s
  | .extract => Sys2Proof.Machine.execExtract s
  | .zext => Sys2Proof.Machine.execZext s
  | .bitrev => Sys2Proof.Machine.execBitrev s
  | .store => Sys2Proof.Machine.execStore s
  | .advance => Sys2Proof.Machine.execAdvance s
  | .finish => Sys2Proof.Machine.execFinish s
  -- data formats (30_encoding.md section 2)
  | .packedwordDefault p c b a => Sys2Proof.Machine.execPackedwordDefault p c b a s
  | .normsampleDefault raw => Sys2Proof.Machine.execNormsampleDefault raw s

end Sys2Proof.Machine
end

