-- ==== Sys2Proof/Machine/Step.lean ====
section
/-! DEFINITION. One step: the next event (43_sequencer.md R120), decoded and executed. -/

namespace Sys2Proof.Machine

/-- One event: a host transaction, a decoder step or `RESET`, whichever comes next (log 2). -/
def step (s : State) : Host.Outcome State Fault Refusal :=
  match decode (eventWord (nextEvent s).1 (nextEvent s).2) with
  | .ok i => exec i (nextEvent s).2
  | .error e => rejected e (nextEvent s).2

/-- `s` with the word of a row of opcode_table.json as its next event (log 3, log 15). -/
def State.withFetchWord (s : State) (nbits w : Nat) : State :=
  match encodedOfTable nbits w with
  | some e => placeWord e s
  | none => s

end Sys2Proof.Machine
end

