-- ==== Sys2Proof/Machine/HostProgram.lean ====
section
/-! DEFINITION. The host notation of 30_encoding.md R84 and its pseudo-operations (R85), as functions
that give lists of events for `State.pending`. -/

namespace Sys2Proof.Machine

/-- `<reg>` of 30_encoding.md R84. -/
inductive RegName where
  | cmd
  | status
  | cfgW
  | cfgB
  | cfgS
  | cfgO
  | cfgWidth
  | cfgHeight
  | cfgLen
  deriving DecidableEq, Repr

/-- The register map (20_memory.md R56). -/
def regOffset : RegName → Offset
  | .cmd => 0x00
  | .status => 0x04
  | .cfgW => 0x08
  | .cfgB => 0x0C
  | .cfgS => 0x10
  | .cfgO => 0x14
  | .cfgWidth => 0x18
  | .cfgHeight => 0x1C
  | .cfgLen => 0x20

/-- `WR <reg>, <value>`. -/
def hostWr (r : RegName) (v : Reg32) : Event := .bus (.regw (regOffset r) v)

/-- `RD <reg>`. -/
def hostRd (r : RegName) : Event := .bus (.regr (regOffset r))

/-- `CMD NOP`. -/
def hostNop : Event := hostWr .cmd 0

/-- `CMD START`. -/
def hostStart : Event := hostWr .cmd 1

/-- `CMD CLEAR`. -/
def hostClear : Event := hostWr .cmd 2

/-- `WRIN <addr>, <byte>`. -/
def hostWrin (a : BitVec 32) (b : Byte) : Event := .bus (.inw a b)

/-- `RDOUT <idx>`. -/
def hostRdout (i : BitVec 32) : Event := .bus (.outr i)

/-- `RESET`. -/
def hostReset : Event := .bus .reset

/-- `CONFIG W, B, S, O, width, height` (R85). -/
def hostConfig (w b s o width height : Reg32) : List Event :=
  [hostWr .cfgW w, hostWr .cfgB b, hostWr .cfgS s, hostWr .cfgO o,
   hostWr .cfgWidth width, hostWr .cfgHeight height]

/-- The writes of `LOAD` from an address on. -/
def hostLoadFrom (a : Nat) (bytes : List Byte) : List Event :=
  match bytes with
  | [] => []
  | b :: bs => hostWrin (BitVec.ofNat 32 a) b :: hostLoadFrom (a + 1) bs

/-- `LOAD b0 b1 ... b(n-1)` (R85). -/
def hostLoad (bytes : List Byte) : List Event :=
  hostLoadFrom 0 bytes ++ [hostWr .cfgLen (BitVec.ofNat 32 bytes.length)]

/-- `WAIT` that ends after `k` polls: a decoder step and a read of `STATUS`, `k` times
(R85 leaves the number of polls to the run, log 22). -/
def hostWait (k : Nat) : List Event :=
  match k with
  | 0 => []
  | n + 1 => .step :: hostRd .status :: hostWait n

/-- `DECODE`: `CMD START`; `WAIT` (R85, log 22). -/
def hostDecode (k : Nat) : List Event := hostStart :: hostWait k

/-- `READGRID`: `RDOUT 0` .. `RDOUT N-1` (R85). -/
def hostReadGrid (n : Nat) : List Event := (List.range n).map fun i => hostRdout (BitVec.ofNat 32 i)

end Sys2Proof.Machine
end

