-- ==== Sys2Proof/Safety.lean ====
section
/-! DEFINITION. The invariants of 10_state.md R39, in the terms the statements use. -/

namespace Sys2Proof.Safety

open Sys2Proof.Machine

/-- The configuration passed all three checks of the `CHECK` step (43_sequencer.md R122). -/
def Legal (s : State) : Prop := checkError s.params s.cfg = none

/-- The first `count` cells of `OUT` hold `NormSeq` (10_state.md R39). -/
def Filled (s : State) (count : Nat) : Prop :=
  ∀ i, i < count → outCell s i = normAt s.cfg (inByte s) i

/-- 10_state.md R39, item 2, with R35 on `WORD`: what holds at every `RUN` step. -/
structure Running (s : State) : Prop where
  legal : Legal s
  position : s.oidx.toNat = s.widx.toNat * s.cfg.s.toNat + s.kidx.toNat
  oidx : s.oidx.toNat < s.cfg.n
  kidx : s.kidx.toNat < s.cfg.s.toNat
  widx : s.widx.toNat < s.cfg.nw
  word : 0 < s.kidx.toNat → s.word = wordAt s.cfg.wb (inByte s) s.widx.toNat
  filled : Filled s s.oidx.toNat

/-- The form of the plain data: the parameters meet 00_scope.md R7, `WORD` has `W_MAX` bits
(10_state.md R35), the memories keep their canonical form inside their sizes (R36, R37), and every
draw is fresh (log 4). -/
structure Formed (s : State) : Prop where
  params : s.params.wf = true
  word : s.word < 2 ^ s.params.wMax
  inForm : Memory.wf s.inMem = true
  inBelow : Memory.below s.params.inSize s.inMem = true
  outForm : Memory.wf s.outMem = true
  outBelow : Memory.below s.params.outSize s.outMem = true
  outWidth : ∀ i, outCell s i < 2 ^ s.params.oMax
  draws : s.epoch < s.draws

/-- The invariant of every reachable state (10_state.md R39, items 1 to 3; item 4 speaks of two
states and is a statement of its own). -/
structure Inv (s : State) : Prop where
  formed : Formed s
  err : s.err ≠ .none ↔ s.state = .error
  check : s.state = .busy → s.phase = .check → s.widx = 0 ∧ s.kidx = 0 ∧ s.oidx = 0
  run : s.state = .busy → s.phase = .run → Running s
  done : s.state = .done → Legal s ∧ Filled s s.cfg.n

/-! What the statements share. -/

/-- A write that stores through `f` in `IDLE` and does nothing anywhere else. -/
def StoresOnlyInIdle (i : Instr) (f : Cfg → Cfg) : Prop :=
  ∀ s : State,
    (s.state = .idle → exec i s = .next { s with cfg := f s.cfg }) ∧
    (s.state ≠ .idle → exec i s = .next s)

/-- A read that answers `f` and changes nothing else, in every state. -/
def Answers (i : Instr) (f : State → Reg32) : Prop :=
  ∀ s : State, exec i s = .next { s with response := some (.register (f s)) }

/-- The sequencer is in the `CHECK` step. -/
def InCheck (s : State) : Prop := s.state = .busy ∧ s.phase = .check

/-- The sequencer is in a `RUN` step. -/
def InRun (s : State) : Prop := s.state = .busy ∧ s.phase = .run

/-- The eight conditions of 43_sequencer.md R123, written out. -/
def BreaksACondition (p : Params) (c : Cfg) : Prop :=
  (c.w.toNat = 0 ∨ c.w.toNat % 8 ≠ 0 ∨ p.wMax < c.w.toNat) ∨
  (c.b.toNat = 0 ∨ c.s.toNat = 0) ∨
  c.w.toNat < c.s.toNat * c.b.toNat ∨
  c.o.toNat < c.b.toNat ∨
  p.oMax < c.o.toNat ∨
  (c.width.toNat = 0 ∨ c.height.toNat = 0) ∨
  p.outSize < c.width.toNat * c.height.toNat ∨
  p.inSize < c.len.toNat

/-- The operations that are events of their own (43_sequencer.md R120): host transactions, the two
decoder steps and `RESET`. -/
def IsEvent (i : Instr) : Prop :=
  (encode i).isTransaction = true ∨ i = .check ∨ i = .run ∨ i = .reset

/-- `STATE`, `ERR` and `PHASE` after an event: the table of 43_sequencer.md R121. -/
def nextControl (i : Instr) (s : State) : SeqState × ErrCode × Phase :=
  match i, s.state, s.phase with
  | .start, .idle, _ => (.busy, s.err, .check)
  | .check, .busy, .check =>
    match checkError s.params s.cfg with
    | some e => (.error, e, .check)
    | none => (.busy, s.err, .run)
  | .run, .busy, .run =>
    if s.oidx.toNat + 1 = s.cfg.width.toNat * s.cfg.height.toNat then (.done, s.err, .run)
    else (.busy, s.err, .run)
  | .clear, .done, p => (.idle, .none, p)
  | .clear, .error, p => (.idle, .none, p)
  | .reset, _, _ => (.idle, .none, .check)
  | _, state, phase => (state, s.err, phase)

/-- The end of a run begun in `s`, as 43_sequencer.md R129 says it. -/
def EndsAsDecode (s t : State) : Prop :=
  t.cfg = s.cfg ∧ (∀ a, inByte t a = inByte s a) ∧
  match decodeFrame s.params s.cfg (inByte s) with
  | .error e => t.state = .error ∧ t.err = e ∧ ∀ i, outCell t i = outCell s i
  | .ok g =>
    t.state = .done ∧ t.err = .none ∧ g.length = s.cfg.height.toNat ∧
    (∀ (r : Nat) (row : List Nat), g[r]? = some row → row.length = s.cfg.width.toNat) ∧
    (∀ r col, r < s.cfg.height.toNat → col < s.cfg.width.toNat →
      (g[r]?.bind fun row => row[col]?) = some (outCell t (r * s.cfg.width.toNat + col))) ∧
    ∀ i, s.cfg.n ≤ i → outCell t i = outCell s i

/-- How many decoder steps a run takes: 1 when a check fails, `1 + N` when none does
(43_sequencer.md R130). -/
def runLength (s : State) : Nat :=
  if checkError s.params s.cfg = none then 1 + s.cfg.n else 1

end Sys2Proof.Safety
end

