-- ==== Sys2Proof/Certificates/Slice0/Obligations.lean ====
section
/-! DEFINITION. The statements for the provers, each a numbered rule of spec/ or a property that rests
on its sections.  `log <n>` is notes/assumptions/<n>.md. -/

open Sys2Proof Sys2Proof.Machine Sys2Proof.Safety

/-! ## Encoding -/

/-- Decode of encode is the instruction, for every operation and every operand; a part of a step, which
has no encoding of its own, gives its step (30_encoding.md R80, log 9). -/
def Obligations.DecodeOfEncodeIsTheInstruction : Prop :=
  ∀ i : Instr, i.wf = true → decode (encode i) = .ok i.wholeStep

/-- Every word that decodes is the encoding of what it decodes to, which is well-formed and whole. -/
def Obligations.EncodeOfDecodeIsTheWord : Prop :=
  ∀ (e : Encoded) (i : Instr), decode e = .ok i → encode i = e ∧ i.wf = true ∧ i.wholeStep = i

/-- The decoder picks the first row of opcode_table.json whose match and mask fit, for every register
write `{offset, wdata}` and every register read at an address of the block. -/
def Obligations.RegisterWordsFollowTheFirstMatchingRow : Prop :=
  ∀ (o : Offset) (v : Reg32), o.toNat % 4 = 0 →
    (∃ i, decode (.regw o v) = .ok i ∧
      lookupRow regwTable (o.toNat * 2 ^ 32 + v.toNat) = some i.mnemonic) ∧
    (∃ i, decode (.regr o) = .ok i ∧ lookupRow regrTable o.toNat = some i.mnemonic)

/-- A few words of 30_encoding.md R72, R75, R77 to R80 and of 95_test_vectors.md part 3, written out.
Which format a row's bits are read in is the model's choice, made by their number (log 15): 40 bits as
`REGW`, 32 as a packed word, 16 as a sample, and 8 bits as a `REGR` offset (`0x04`) or, below 8 and off
the multiples of 4, as the 3-bit `sel` of R80 (`0b010`, `0b011`). -/
def Obligations.WordsDecodeAsTheSpecWritesThem : Prop :=
  decodeTableWord 40 0x0000000001 = some .start ∧
  decodeTableWord 40 0x0080000001 = some (.cmdReserved 0x80000001) ∧
  decodeTableWord 40 0x1800000003 = some (.wrregCfgWidth 3) ∧
  decodeTableWord 8 0x04 = some .rdregStatus ∧
  decodeTableWord 8 0b010 = some .check ∧
  decodeTableWord 8 0b011 = some .run ∧
  decodeTableWord 32 0x3FF00801 = some (.packedwordDefault 0 1023 2 1) ∧
  decodeTableWord 16 0x2800 = some (.normsampleDefault 20)

/-- 20_memory.md R57: a reserved offset reads 0 and ignores writes; an offset that is not a multiple of
4 is no address, and its transaction changes nothing (log 14). -/
def Obligations.ReservedOffsetsAreInert : Prop :=
  ∀ (s : State) (rest : List Event) (o : Offset) (v : Reg32),
    (0x24 ≤ o.toNat → o.toNat % 4 = 0 →
      (s.pending = .bus (.regw o v) :: rest → step s = .next { s with pending := rest }) ∧
      (s.pending = .bus (.regr o) :: rest →
        step s = .next { s with pending := rest, response := some (.register 0) })) ∧
    (o.toNat % 4 ≠ 0 →
      (s.pending = .bus (.regw o v) :: rest → step s = .next { s with pending := rest }) ∧
      (s.pending = .bus (.regr o) :: rest → step s = .next { s with pending := rest }))

/-- 30_encoding.md R72 and R73: a default packed word lies in memory as the table says, at addresses
`4i` to `4i+3`, and its three samples are the fields of its pattern. -/
def Obligations.DefaultWordLiesInMemoryAsTabled : Prop :=
  ∀ (inp : Nat → Byte) (i : Nat) (pad : BitVec 2) (c b a : BitVec 10),
    (encode (.packedwordDefault pad c b a) = .packedWord (BitVec.ofNat 32 (wordAt 4 inp i)) ↔
      inp (4 * i) = a.extractLsb' 0 8 ∧
      inp (4 * i + 1) = b.extractLsb' 0 6 ++ a.extractLsb' 8 2 ∧
      inp (4 * i + 2) = c.extractLsb' 0 4 ++ b.extractLsb' 6 4 ∧
      inp (4 * i + 3) = pad ++ c.extractLsb' 4 6) ∧
    ∀ w : BitVec 32, decode (.packedWord w) = .ok (.packedwordDefault pad c b a) →
      extractSample 10 w.toNat 0 = a.toNat ∧ extractSample 10 w.toNat 1 = b.toNat ∧
      extractSample 10 w.toNat 2 = c.toNat ∧ w.toNat / 2 ^ 30 = pad.toNat

/-- The default normalized sample (30_encoding.md R75): the 16-bit value of a raw sample's format is the
sample's normalized value. -/
def Obligations.DefaultSampleFormatIsItsNormalizedValue : Prop :=
  ∀ raw : BitVec 10,
    encode (.normsampleDefault raw) = .normSample (BitVec.ofNat 16 (normalizeSample 10 16 raw.toNat))

/-! ## One step -/

/-- A step runs the decoded instruction: the first pending event is taken off and its word executed;
a decoder step's word is the sequencer's own selection, and with nothing pending the decoder steps
(43_sequencer.md R120, 30_encoding.md R80, log 2). -/
def Obligations.StepRunsTheDecodedWord : Prop :=
  ∀ (s : State) (i : Instr),
    (∀ w rest, s.pending = .bus w :: rest → decode w = .ok i →
      step s = exec i { s with pending := rest }) ∧
    (∀ rest, s.pending = .step :: rest → decode (.seq (selOf s)) = .ok i →
      step s = exec i { s with pending := rest }) ∧
    (s.pending = [] → decode (.seq (selOf s)) = .ok i → step s = exec i s)

/-- In `IDLE`, `DONE` and `ERROR` the decoder has no step: it waits (43_sequencer.md R127, R120).  That a
decoder step may come when none is enabled, and then only leaves the queue, and that the decoder's turn
comes when nothing is pending, is the model's schedule (log 2). -/
def Obligations.DecoderWaitsOutsideBusy : Prop :=
  ∀ s : State, s.state ≠ .busy →
    (s.pending = [] → step s = .next s) ∧
    ∀ rest, s.pending = .step :: rest → step s = .next { s with pending := rest }

/-- Every operation of the decoder does nothing when the sequencer does not select it, and a check does
nothing when a check before it has failed (30_encoding.md R80, 43_sequencer.md R122, log 9). -/
def Obligations.UnselectedDecoderOperationsDoNothing : Prop :=
  ∀ s : State,
    (¬ InCheck s → ∀ i, i.wholeStep = .check → exec i s = .next s) ∧
    (¬ InRun s → ∀ i, i.wholeStep = .run → exec i s = .next s) ∧
    (BreaksACondition s.params s.cfg → exec .lenchk s = .next s ∧ exec .dimchk s = .next s) ∧
    (s.cfg.len.toNat % (s.cfg.w.toNat / 8) ≠ 0 → exec .dimchk s = .next s)

/-! ## Reset -/

/-- State.reset: every register at the value of 10_state.md R40, nothing written in either memory, for
the implementation 92_eei_decisions.md D11 suggests (log 1); `WORD` is the model's free value
(log 4). -/
def Obligations.ResetStateHoldsTheResetValues : Prop :=
  State.reset.cfg = { w := 32, b := 10, s := 3, o := 16, width := 1314, height := 1048, len := 0 } ∧
  statusWord State.reset = 0 ∧ State.reset.state = .idle ∧ State.reset.err = .none ∧
  State.reset.phase = .check ∧
  State.reset.widx = 0 ∧ State.reset.kidx = 0 ∧ State.reset.oidx = 0 ∧
  (∀ a, inByte State.reset a = Config.freeInByte 0 a) ∧
  (∀ i, outCell State.reset i = (Config.freeOutCell 0 i 32).toNat) ∧
  State.reset.word = (Config.freeWord 0 64).toNat ∧
  State.reset.params = { wMax := 64, oMax := 32, inSize := 2 ^ 24, outSize := 2 ^ 22 }

/-- `RESET` completes in every state and leaves the reset values; the unspecified contents are a fresh
draw of free values, whatever was there before (44_host_interface.md section 5, log 4, log 23). -/
def Obligations.ResetFromAnyState : Prop :=
  ∀ s : State, ∃ t, exec .reset s = .next t ∧
    t.cfg = { w := 32, b := 10, s := 3, o := 16, width := 1314, height := 1048, len := 0 } ∧
    t.state = .idle ∧ t.err = .none ∧ t.phase = .check ∧
    t.widx = 0 ∧ t.kidx = 0 ∧ t.oidx = 0 ∧
    t.word = (Config.freeWord s.draws s.params.wMax).toNat ∧
    (∀ a, inByte t a = Config.freeInByte s.draws a) ∧
    (∀ i, outCell t i = (Config.freeOutCell s.draws i s.params.oMax).toNat) ∧
    t.draws = s.draws + 1 ∧ t.params = s.params ∧
    t.pending = s.pending ∧ t.response = s.response ∧ t.path = s.path

/-! ## Commands and register transactions -/

/-- 44_host_interface.md R143 and R146: `NOP` and a reserved command change nothing in any state. -/
def Obligations.NopAndReservedCommandsChangeNothing : Prop :=
  ∀ (s : State) (v : Reg32),
    decode (.regw 0x00 0) = .ok .nop ∧ exec .nop s = .next s ∧
    (v.toNat ≠ 0 → v.toNat ≠ 1 → v.toNat ≠ 2 → decode (.regw 0x00 v) = .ok (.cmdReserved v)) ∧
    exec (.cmdReserved v) s = .next s

/-- 44_host_interface.md R141: a configuration write is stored whole in `IDLE` and ignored outside it;
a write to `STATUS` or at a reserved offset is ignored in every state. -/
def Obligations.ConfigurationWritesTakeEffectOnlyInIdle : Prop :=
  ∀ (v : Reg32),
    (StoresOnlyInIdle (.wrregCfgW v) (fun c => { c with w := v }) ∧ decode (.regw 0x08 v) = .ok (.wrregCfgW v)) ∧
    (StoresOnlyInIdle (.wrregCfgB v) (fun c => { c with b := v }) ∧ decode (.regw 0x0C v) = .ok (.wrregCfgB v)) ∧
    (StoresOnlyInIdle (.wrregCfgS v) (fun c => { c with s := v }) ∧ decode (.regw 0x10 v) = .ok (.wrregCfgS v)) ∧
    (StoresOnlyInIdle (.wrregCfgO v) (fun c => { c with o := v }) ∧ decode (.regw 0x14 v) = .ok (.wrregCfgO v)) ∧
    (StoresOnlyInIdle (.wrregCfgWidth v) (fun c => { c with width := v }) ∧
      decode (.regw 0x18 v) = .ok (.wrregCfgWidth v)) ∧
    (StoresOnlyInIdle (.wrregCfgHeight v) (fun c => { c with height := v }) ∧
      decode (.regw 0x1C v) = .ok (.wrregCfgHeight v)) ∧
    (StoresOnlyInIdle (.wrregCfgLen v) (fun c => { c with len := v }) ∧
      decode (.regw 0x20 v) = .ok (.wrregCfgLen v)) ∧
    ∀ s : State, exec (.wrstatus v) s = .next s ∧ ∀ o, exec (.regwReserved o v) s = .next s

/-- 44_host_interface.md R142: a read at each offset answers its register in every state and changes
nothing; `STATUS` is `{28'b0, ERR, STATE}`, and in a state that meets the invariant one of six values. -/
def Obligations.RegisterReadsAnswerTheRegister : Prop :=
  (decode (.regr 0x00) = .ok .rdregCmd ∧ Answers .rdregCmd (fun _ => 0)) ∧
  decode (.regr 0x04) = .ok .rdregStatus ∧
  (decode (.regr 0x08) = .ok .rdregCfgW ∧ Answers .rdregCfgW (fun s => s.cfg.w)) ∧
  (decode (.regr 0x0C) = .ok .rdregCfgB ∧ Answers .rdregCfgB (fun s => s.cfg.b)) ∧
  (decode (.regr 0x10) = .ok .rdregCfgS ∧ Answers .rdregCfgS (fun s => s.cfg.s)) ∧
  (decode (.regr 0x14) = .ok .rdregCfgO ∧ Answers .rdregCfgO (fun s => s.cfg.o)) ∧
  (decode (.regr 0x18) = .ok .rdregCfgWidth ∧ Answers .rdregCfgWidth (fun s => s.cfg.width)) ∧
  (decode (.regr 0x1C) = .ok .rdregCfgHeight ∧ Answers .rdregCfgHeight (fun s => s.cfg.height)) ∧
  (decode (.regr 0x20) = .ok .rdregCfgLen ∧ Answers .rdregCfgLen (fun s => s.cfg.len)) ∧
  (∀ o : Offset, 0x24 ≤ o.toNat → o.toNat % 4 = 0 →
    decode (.regr o) = .ok (.regrReserved o) ∧ Answers (.regrReserved o) (fun _ => 0)) ∧
  ∀ s : State, ∃ v : Reg32,
    exec .rdregStatus s = .next { s with response := some (.register v) } ∧
    v.toNat =
      4 * (match s.err with | .none => 0 | .malformedInput => 1 | .dimensionMismatch => 2 | .badConfig => 3) +
        (match s.state with | .idle => 0 | .busy => 1 | .done => 2 | .error => 3) ∧
    (Inv s → v.toNat ∈ [0x0, 0x1, 0x2, 0x7, 0xB, 0xF])

/-- 44_host_interface.md R144: `START` begins a decode from `IDLE`, with the counters afresh and nothing
else touched (`ERR` is `NONE` already), and is ignored in every other state. -/
def Obligations.StartBeginsADecodeFromIdle : Prop :=
  decode (.regw 0x00 1) = .ok .start ∧
  ∀ s : State,
    (s.state = .idle → exec .start s =
      .next { s with state := .busy, phase := .check, widx := 0, kidx := 0, oidx := 0 }) ∧
    (s.state ≠ .idle → exec .start s = .next s) ∧
    (Inv s → s.state = .idle → s.err = .none)

/-- 44_host_interface.md R145: `CLEAR` returns from `DONE` and `ERROR` to `IDLE` with no error, touches
nothing else, and is ignored in `IDLE` and `BUSY`. -/
def Obligations.ClearReturnsToIdle : Prop :=
  decode (.regw 0x00 2) = .ok .clear ∧
  ∀ s : State,
    (s.state = .done ∨ s.state = .error → exec .clear s = .next { s with state := .idle, err := .none }) ∧
    (s.state = .idle ∨ s.state = .busy → exec .clear s = .next s)

/-! ## Memory transactions -/

/-- 44_host_interface.md R147: `WRIN` writes its one byte in `IDLE` inside the memory, and otherwise
nothing; every other byte reads as before. -/
def Obligations.WrinWritesOneByteInIdle : Prop :=
  ∀ (a : BitVec 32) (b : Byte) (s : State),
    decode (.inw a b) = .ok (.wrin a b) ∧
    (s.state = .idle → a.toNat < s.params.inSize →
      ∃ t, exec (.wrin a b) s = .next t ∧ t = { s with inMem := t.inMem } ∧
        inByte t a.toNat = b ∧ ∀ x, x ≠ a.toNat → inByte t x = inByte s x) ∧
    (s.state ≠ .idle ∨ s.params.inSize ≤ a.toNat → exec (.wrin a b) s = .next s)

/-- In `DONE`, `RDOUT` answers the grid: cell `r * width + c` is row `r`, column `c` of what `Decode`
gives for the configuration and buffer as they stand, below `2^O`, and the read changes nothing else
(44_host_interface.md section 4 and section 6, the hand-off). -/
def Obligations.RdoutInDoneAnswersTheGrid : Prop :=
  ∀ s : State, Inv s → s.state = .done →
    ∃ g : List (List Nat), decodeFrame s.params s.cfg (inByte s) = .ok g ∧
      ∀ i : BitVec 32, i.toNat < s.cfg.n →
        ∃ v, exec (.rdout i) s = .next { s with response := some (.cell v) } ∧
          v = outCell s i.toNat ∧ v < 2 ^ s.cfg.o.toNat ∧
          (g[s.cfg.rowOf i.toNat]?.bind fun row : List Nat => row[s.cfg.colOf i.toNat]?) = some v

/-- Outside `DONE`, or at `N` and above, `RDOUT` answers an unspecified value: the model's fresh free
value, a new draw for each read (log 6); the block's own state does not change
(44_host_interface.md section 4). -/
def Obligations.RdoutElsewhereAnswersAFreshValue : Prop :=
  ∀ (s : State) (i : BitVec 32), s.state ≠ .done ∨ s.cfg.n ≤ i.toNat →
    exec (.rdout i) s = .next { s with
      response := some (.cell (Config.freeRead s.draws s.params.oMax).toNat)
      draws := s.draws + 1 }

/-! ## The CHECK step -/

/-- 43_sequencer.md R122 and 60_exceptions.md R164: the first failing check, in this order, sets `STATE`
and `ERR` and nothing else (R165); if none fails `PHASE <- RUN`, and there is a word and a sample.  The
counters are 0 before the step in a state that meets the invariant. -/
def Obligations.CheckReportsTheFirstFailingCheck : Prop :=
  ∀ s : State, InCheck s →
    (BreaksACondition s.params s.cfg →
      exec .check s = .next { s with state := .error, err := .badConfig }) ∧
    (¬ BreaksACondition s.params s.cfg → s.cfg.len.toNat % (s.cfg.w.toNat / 8) ≠ 0 →
      exec .check s = .next { s with state := .error, err := .malformedInput }) ∧
    (¬ BreaksACondition s.params s.cfg → s.cfg.len.toNat % (s.cfg.w.toNat / 8) = 0 →
      s.cfg.len.toNat / (s.cfg.w.toNat / 8) * s.cfg.s.toNat ≠ s.cfg.width.toNat * s.cfg.height.toNat →
      exec .check s = .next { s with state := .error, err := .dimensionMismatch }) ∧
    (¬ BreaksACondition s.params s.cfg → s.cfg.len.toNat % (s.cfg.w.toNat / 8) = 0 →
      s.cfg.len.toNat / (s.cfg.w.toNat / 8) * s.cfg.s.toNat = s.cfg.width.toNat * s.cfg.height.toNat →
      exec .check s = .next { s with phase := .run } ∧
      1 ≤ s.cfg.width.toNat * s.cfg.height.toNat ∧ 1 ≤ s.cfg.len.toNat / (s.cfg.w.toNat / 8)) ∧
    (Inv s → s.widx = 0 ∧ s.kidx = 0 ∧ s.oidx = 0)

/-- 43_sequencer.md R123: `CFGCHK` raises `BadConfig` exactly when one of the eight conditions holds. -/
def Obligations.CfgchkRaisesBadConfig : Prop :=
  ∀ s : State, InCheck s →
    (BreaksACondition s.params s.cfg →
      exec .cfgchk s = .next { s with state := .error, err := .badConfig }) ∧
    (¬ BreaksACondition s.params s.cfg → exec .cfgchk s = .next s)

/-- 40_sample_extractor.md R94: `LENCHK`, once `CFGCHK` has passed, raises `MalformedInput` exactly when
the length is not a whole number of words; the empty buffer and one-byte words always pass. -/
def Obligations.LenchkRaisesMalformedInput : Prop :=
  ∀ s : State, InCheck s → ¬ BreaksACondition s.params s.cfg →
    (s.cfg.len.toNat % (s.cfg.w.toNat / 8) ≠ 0 →
      exec .lenchk s = .next { s with state := .error, err := .malformedInput }) ∧
    (s.cfg.len.toNat % (s.cfg.w.toNat / 8) = 0 → exec .lenchk s = .next s) ∧
    (s.cfg.len.toNat = 0 ∨ s.cfg.w.toNat = 8 → exec .lenchk s = .next s)

/-- 42_raster_assembler.md R111: `DIMCHK`, once `LENCHK` has passed, raises `DimensionMismatch` exactly
when the sample count is not `width * height`, one too few and one too many alike; the empty buffer
always fails. -/
def Obligations.DimchkRaisesDimensionMismatch : Prop :=
  ∀ s : State, InCheck s → ¬ BreaksACondition s.params s.cfg →
    s.cfg.len.toNat % (s.cfg.w.toNat / 8) = 0 →
    (s.cfg.len.toNat / (s.cfg.w.toNat / 8) * s.cfg.s.toNat ≠ s.cfg.width.toNat * s.cfg.height.toNat →
      exec .dimchk s = .next { s with state := .error, err := .dimensionMismatch }) ∧
    (s.cfg.len.toNat / (s.cfg.w.toNat / 8) * s.cfg.s.toNat = s.cfg.width.toNat * s.cfg.height.toNat →
      exec .dimchk s = .next s) ∧
    (s.cfg.len.toNat = 0 →
      exec .dimchk s = .next { s with state := .error, err := .dimensionMismatch }) ∧
    (s.cfg.width.toNat * s.cfg.height.toNat % s.cfg.s.toNat ≠ 0 →
      exec .dimchk s = .next { s with state := .error, err := .dimensionMismatch })

/-- The `CHECK` step is its three checks in order, then `PHASE <- RUN` if none has raised
(43_sequencer.md section 3, log 9). -/
def Obligations.CheckIsItsThreeChecksInOrder : Prop :=
  ∀ s : State, InCheck s →
    exec .check s = andThen (exec .cfgchk s) fun s1 => andThen (exec .lenchk s1) fun s2 =>
      andThen (exec .dimchk s2) fun s3 =>
        .next (if s3.state = .busy then { s3 with phase := .run } else s3)

/-! ## The RUN step -/

/-- 40_sample_extractor.md R91: at the first sample of a word `FETCHW` latches the little-endian word
from inside the buffer, with nothing above its `W` bits, and changes nothing else. -/
def Obligations.FetchwLatchesTheWord : Prop :=
  ∀ s : State, InRun s → Running s →
    s.widx.toNat * (s.cfg.w.toNat / 8) + s.cfg.w.toNat / 8 ≤ s.cfg.len.toNat ∧
    s.cfg.len.toNat ≤ s.params.inSize ∧
    (s.kidx.toNat = 0 → ∃ v, exec .fetchw s = .next { s with word := v } ∧
      v < 2 ^ s.cfg.w.toNat ∧
      ∀ j, j < s.cfg.w.toNat / 8 →
        v / 2 ^ (8 * j) % 2 ^ 8 = (inByte s (s.widx.toNat * (s.cfg.w.toNat / 8) + j)).toNat) ∧
    (s.kidx.toNat ≠ 0 → exec .fetchw s = .next s)

/-- 40_sample_extractor.md R92: `EXTRACT` takes lane `k` of the word, `floor(word / 2^(k*B)) mod 2^B`,
whose bit `i` is bit `k*B + i` of the word; a lane below `S` lies inside the word. -/
def Obligations.ExtractTakesLaneK : Prop :=
  ∀ s : State, InRun s → ¬ BreaksACondition s.params s.cfg →
    ∃ v, exec .extract s = .next { s with path := { s.path with raw := v } } ∧
      v = (s.word >>> (s.kidx.toNat * s.cfg.b.toNat)) &&& ((1 <<< s.cfg.b.toNat) - 1) ∧
      v = s.word / 2 ^ (s.kidx.toNat * s.cfg.b.toNat) % 2 ^ s.cfg.b.toNat ∧
      (s.kidx.toNat < s.cfg.s.toNat →
        s.kidx.toNat * s.cfg.b.toNat + s.cfg.b.toNat ≤ s.cfg.w.toNat) ∧
      ∀ i, v.testBit i = (decide (i < s.cfg.b.toNat) && s.word.testBit (s.kidx.toNat * s.cfg.b.toNat + i))

/-- 41_bit_reversal_normalizer.md R100: `ZEXT` keeps bits 0 to `B-1` of a raw sample and makes bits `B`
and up 0, so it keeps the value of every raw sample. -/
def Obligations.ZextKeepsTheValue : Prop :=
  ∀ s : State, InRun s → ¬ BreaksACondition s.params s.cfg →
    ∃ x, exec .zext s = .next { s with path := { s.path with x := x } } ∧
      (∀ i, i < s.cfg.b.toNat → x.testBit i = s.path.raw.testBit i) ∧
      (∀ i, s.cfg.b.toNat ≤ i → x.testBit i = false) ∧
      (s.path.raw < 2 ^ s.cfg.b.toNat → x = s.path.raw)

/-- 41_bit_reversal_normalizer.md R101: `BITREV` puts bit `i` at `O-1-i`, for every `i` below `O`, in an
`O`-bit value. -/
def Obligations.BitrevMirrorsEveryBit : Prop :=
  ∀ s : State, InRun s → ¬ BreaksACondition s.params s.cfg →
    ∃ y, exec .bitrev s = .next { s with path := { s.path with y := y } } ∧
      y < 2 ^ s.cfg.o.toNat ∧
      ∀ i, i < s.cfg.o.toNat → y.testBit (s.cfg.o.toNat - 1 - i) = s.path.x.testBit i

/-- 42_raster_assembler.md R112: `STORE` writes `y` to cell `OIDX`, inside the grid, and no other cell. -/
def Obligations.StoreWritesOneCell : Prop :=
  ∀ s : State, InRun s → Running s →
    s.oidx.toNat < s.cfg.width.toNat * s.cfg.height.toNat ∧
    s.cfg.width.toNat * s.cfg.height.toNat ≤ s.params.outSize ∧
    s.oidx.toNat = s.cfg.rowOf s.oidx.toNat * s.cfg.width.toNat + s.cfg.colOf s.oidx.toNat ∧
    ∃ t, exec .store s = .next t ∧ t = { s with outMem := t.outMem } ∧
      outCell t s.oidx.toNat = s.path.y ∧ ∀ i, i ≠ s.oidx.toNat → outCell t i = outCell s i

/-- 43_sequencer.md R125: `ADVANCE` moves to the next position, keeps `OIDX = WIDX * S + KIDX`, and wraps
no counter at its width. -/
def Obligations.AdvanceMovesToTheNextSample : Prop :=
  ∀ s : State, s.params.wf = true → InRun s → Running s →
    ∃ t, exec .advance s = .next t ∧
      t = { s with widx := t.widx, kidx := t.kidx, oidx := t.oidx } ∧
      t.oidx.toNat = s.oidx.toNat + 1 ∧
      (s.kidx.toNat + 1 = s.cfg.s.toNat → t.kidx.toNat = 0 ∧ t.widx.toNat = s.widx.toNat + 1) ∧
      (s.kidx.toNat + 1 ≠ s.cfg.s.toNat → t.kidx.toNat = s.kidx.toNat + 1 ∧ t.widx = s.widx) ∧
      t.oidx.toNat = t.widx.toNat * s.cfg.s.toNat + t.kidx.toNat

/-- 43_sequencer.md R126: `FINISH` sets `STATE` to `DONE` when `OIDX` has reached `N`, and only then. -/
def Obligations.FinishEndsTheDecode : Prop :=
  ∀ s : State, InRun s → ¬ BreaksACondition s.params s.cfg →
    (s.oidx.toNat = s.cfg.width.toNat * s.cfg.height.toNat →
      exec .finish s = .next { s with state := .done }) ∧
    (s.oidx.toNat ≠ s.cfg.width.toNat * s.cfg.height.toNat → exec .finish s = .next s)

/-- The `RUN` step is its parts in the order of 43_sequencer.md section 4. -/
def Obligations.RunIsItsPartsInOrder : Prop :=
  ∀ s : State,
    exec .run s = andThen (exec .fetchw s) fun s1 => andThen (exec .extract s1) fun s2 =>
      andThen (exec .zext s2) fun s3 => andThen (exec .bitrev s3) fun s4 =>
      andThen (exec .store s4) fun s5 => andThen (exec .advance s5) fun s6 => exec .finish s6

/-- 43_sequencer.md R124: a `RUN` step never fails, stores `Normalize(Extract(WordAt(IN, p / S), p mod S))`
at `p = OIDX`, advances, ends the decode at the last sample, and touches nothing else the spec names. -/
def Obligations.RunStoresOneNormalizedSample : Prop :=
  ∀ s : State, s.params.wf = true → InRun s → Running s →
    ∃ t, exec .run s = .next t ∧
      outCell t s.oidx.toNat =
        bitRev s.cfg.o.toNat (zeroExtend s.cfg.b.toNat s.cfg.o.toNat
          (extractSample s.cfg.b.toNat (wordAt (s.cfg.w.toNat / 8) (inByte s) (s.oidx.toNat / s.cfg.s.toNat))
            (s.oidx.toNat % s.cfg.s.toNat))) ∧
      (∀ i, i ≠ s.oidx.toNat → outCell t i = outCell s i) ∧
      t.word = wordAt (s.cfg.w.toNat / 8) (inByte s) s.widx.toNat ∧
      t.oidx.toNat = s.oidx.toNat + 1 ∧
      (s.kidx.toNat + 1 = s.cfg.s.toNat → t.kidx.toNat = 0 ∧ t.widx.toNat = s.widx.toNat + 1) ∧
      (s.kidx.toNat + 1 ≠ s.cfg.s.toNat → t.kidx.toNat = s.kidx.toNat + 1 ∧ t.widx = s.widx) ∧
      t.state = (if s.oidx.toNat + 1 = s.cfg.width.toNat * s.cfg.height.toNat then .done else .busy) ∧
      t = { s with
        state := t.state, widx := t.widx, kidx := t.kidx, oidx := t.oidx
        word := t.word, outMem := t.outMem, path := t.path }

/-- A `RUN` step depends on neither the wires nor, at the first sample of a word, on what `WORD` held:
the model's own wires carry nothing from one step to the next (log 8), and `WORD` is never read before
it is written (10_state.md section 5). -/
def Obligations.RunStepIgnoresStaleWiresAndWord : Prop :=
  ∀ (s : State) (p : DataPath) (v : Nat), InRun s →
    exec .run { s with path := p } = exec .run s ∧
    (s.kidx = 0 → exec .run { s with path := p, word := v } = exec .run s)

/-- `BUSY`/`RUN` under a configuration `CFGCHK` rejects gives no grid: the model stops (the model's
choice for states no run reaches, 93_implementation_defined.md U1, log 10). -/
def Obligations.RunWithoutALegalConfigurationStops : Prop :=
  ∀ s : State, InRun s → BreaksACondition s.params s.cfg →
    ∀ i : Instr, i.wholeStep = .run → exec i s = .fault .configNotLegal

/-! ## Data formats -/

/-- The data formats of opcode_table.json are no operations: executing one stops by name (log 16). -/
def Obligations.DataFormatsAreNoOperations : Prop :=
  ∀ s : State,
    (∀ p c b a, exec (.packedwordDefault p c b a) s = .refused (.dataFormat "PACKEDWORD.default")) ∧
    (∀ raw, exec (.normsampleDefault raw) s = .refused (.dataFormat "NORMSAMPLE.default"))

/-! ## The three stages as functions -/

/-- 41_bit_reversal_normalizer.md R102: the closed form, with its consequences: the outputs are the
multiples of `2^(O-B)` below `2^O`, every one of them, and the largest is `(2^B - 1) * 2^(O-B)`. -/
def Obligations.NormalizeIsTheScaledReversal : Prop :=
  ∀ b o raw : Nat, b ≤ o → raw < 2 ^ b →
    normalizeSample b o raw = 2 ^ (o - b) * bitRev b raw ∧
    normalizeSample b o raw % 2 ^ (o - b) = 0 ∧
    normalizeSample b o raw ≤ (2 ^ b - 1) * 2 ^ (o - b) ∧
    normalizeSample b o (2 ^ b - 1) = (2 ^ b - 1) * 2 ^ (o - b) ∧
    ∃ r, r < 2 ^ b ∧ normalizeSample b o r = raw * 2 ^ (o - b)

/-- 41_bit_reversal_normalizer.md R105: reversing twice is the identity on `O`-bit values, and reversing
a normalized sample gives the raw sample back. -/
def Obligations.BitReversalIsAnInvolution : Prop :=
  (∀ o x : Nat, x < 2 ^ o → bitRev o (bitRev o x) = x) ∧
  ∀ b o raw : Nat, b ≤ o → raw < 2 ^ b → bitRev o (normalizeSample b o raw) = raw

/-- 41_bit_reversal_normalizer.md R103: normalizing is no shift: the two agree exactly when the raw sample
is its own reversal, and differ at `B = 10`, `O = 16`, `raw = 1`. -/
def Obligations.NormalizeIsAShiftOnlyOnPalindromes : Prop :=
  (∀ b o raw : Nat, b ≤ o → raw < 2 ^ b →
    (normalizeSample b o raw = raw <<< (o - b) ↔ bitRev b raw = raw)) ∧
  normalizeSample 10 16 1 = 0x8000 ∧ 1 <<< (16 - 10) = 0x0040

/-- 40_sample_extractor.md R97: packing whole groups of samples into words and extracting them gives the
samples back. -/
def Obligations.PackThenExtractIsTheIdentity : Prop :=
  ∀ (c : Cfg) (r : List Nat) (groups : Nat),
    c.w.toNat % 8 = 0 → 0 < c.w.toNat → 0 < c.s.toNat → 0 < c.b.toNat →
    c.s.toNat * c.b.toNat ≤ c.w.toNat →
    r.length = groups * c.s.toNat → (∀ v ∈ r, v < 2 ^ c.b.toNat) →
    c.len.toNat = groups * (c.w.toNat / 8) →
    (packGroups c.b.toNat c.s.toNat (c.w.toNat / 8) groups r).length = c.len.toNat ∧
    rawSeq c (fun a => (packGroups c.b.toNat c.s.toNat (c.w.toNat / 8) groups r).getD a 0) = r

/-- 40_sample_extractor.md R95: buffers whose words differ only in padding bits give the same samples
and the same decode. -/
def Obligations.PaddingNeverReachesASample : Prop :=
  ∀ (p : Params) (c : Cfg) (inp inp' : Nat → Byte),
    (∀ i, i < c.nw → wordAt c.wb inp i % 2 ^ (c.s.toNat * c.b.toNat) =
      wordAt c.wb inp' i % 2 ^ (c.s.toNat * c.b.toNat)) →
    rawSeq c inp = rawSeq c inp' ∧ decodeFrame p c inp = decodeFrame p c inp'

/-- 42_raster_assembler.md R113 and R115: the grid of `width * height` samples has `height` rows of
`width`, holds sample `r * width + c` at row `r`, column `c`, and flattens to the sequence. -/
def Obligations.GridIsRowMajorAndLosesNothing : Prop :=
  ∀ (width height : Nat) (seq : List Nat), seq.length = width * height →
    (grid width height seq).length = height ∧
    (∀ row ∈ grid width height seq, row.length = width) ∧
    (∀ r col, r < height → col < width →
      ((grid width height seq)[r]?.bind fun row => row[col]?) = seq[r * width + col]?) ∧
    (grid width height seq).flatten = seq

/-! ## Rules of the whole machine -/

/-- The invariant holds at reset (10_state.md R39; the reset state is the model's, log 1). -/
def Obligations.InvariantHoldsAtReset : Prop := Inv State.reset

/-- Every step, of whatever agent, keeps the invariant of 10_state.md R39. -/
def Obligations.EveryStepKeepsTheInvariant : Prop :=
  ∀ s t : State, Inv s → step s = .next t → Inv t

/-- No stop is reachable: from a state that meets the invariant, a host transaction, a decoder step, a
`RESET` or a wait answers a next state. -/
def Obligations.NothingStopsTheMachine : Prop :=
  ∀ s : State, Inv s →
    (∀ w rest, s.pending = .bus w :: rest → w.isTransaction = true ∨ w = .reset) →
    ∃ t, step s = .next t

/-- 43_sequencer.md R121: every event answers a next state, and takes `STATE`, `ERR` and `PHASE` where
the table says; every pair that is not in the table leaves them alone. -/
def Obligations.TransitionsAreTheTable : Prop :=
  ∀ (i : Instr) (s : State), Inv s → IsEvent i →
    ∃ t, exec i s = .next t ∧ (t.state, t.err, t.phase) = nextControl i s

/-- 20_memory.md R59: outside `IDLE` no operation but `RESET` changes the configuration or a byte of
`IN`. -/
def Obligations.ConfigurationAndBufferAreFrozenOutsideIdle : Prop :=
  ∀ (i : Instr) (s t : State), s.state ≠ .idle → i ≠ .reset → exec i s = .next t →
    t.cfg = s.cfg ∧ ∀ a, inByte t a = inByte s a

/-- Only `STORE`, alone or in a `RUN` step, and `RESET` change a cell of `OUT`; only `WRIN` and `RESET`
change a byte of `IN`; only configuration writes and `RESET` change a configuration register; only
`FETCHW`, alone or in a `RUN` step, and `RESET` change `WORD` (10_state.md section 8, who writes what). -/
def Obligations.WhoWritesWhat : Prop :=
  ∀ (i : Instr) (s t : State), exec i s = .next t → i ≠ .reset →
    (i ≠ .run → i ≠ .store → ∀ k, outCell t k = outCell s k) ∧
    (i ≠ .run → i ≠ .fetchw → t.word = s.word) ∧
    ((∀ a b, i ≠ .wrin a b) → ∀ a, inByte t a = inByte s a) ∧
    ((∀ v, i ≠ .wrregCfgW v ∧ i ≠ .wrregCfgB v ∧ i ≠ .wrregCfgS v ∧ i ≠ .wrregCfgO v ∧
      i ≠ .wrregCfgWidth v ∧ i ≠ .wrregCfgHeight v ∧ i ≠ .wrregCfgLen v) → t.cfg = s.cfg)

/-- The implementation parameters are fixed: no step changes them (10_state.md R41, the model's argument
of log 1). -/
def Obligations.NoStepChangesTheParameters : Prop :=
  ∀ s t : State, step s = .next t → t.params = s.params

/-- 60_exceptions.md R167: an error stays until `CLEAR` or `RESET`, and `CLEAR` restores `STATE` and
`ERR` alone. -/
def Obligations.ErrorsStayUntilClearOrReset : Prop :=
  ∀ (i : Instr) (s t : State), s.state = .error → exec i s = .next t →
    (i ≠ .clear → i ≠ .reset → t.state = .error ∧ t.err = s.err) ∧
    (i = .clear → t = { s with state := .idle, err := .none }) ∧
    (i = .reset → t.state = .idle ∧ t.err = .none)

/-- A decode left alone computes `Decode`: after `START` in `IDLE` the decoder is `BUSY` for exactly the
number of steps of 43_sequencer.md section 5 (1 when a check fails, `1 + N` when none does) and then
stands in `DONE` or `ERROR` with the outcome `Decode` gives.  Its schedule is the model's choice: the host
is silent after `START`, and with nothing pending the decoder steps at once (log 2).  Its step counts
are those of the reference sequencer (R130, log 19), no promise about an implementation and no time
(70_reset_and_hazards.md R191). -/
def Obligations.ADecodeLeftAloneComputesTheFrame : Prop :=
  ∀ s : State, Inv s → s.state = .idle → s.pending = [hostStart] →
    (∀ k, k < runLength s → ∃ t, Host.Core.run core (1 + k) s = .next t ∧ t.state = .busy) ∧
    ∃ t, Host.Core.run core (1 + runLength s) s = .next t ∧ EndsAsDecode s t

/-- 43_sequencer.md R129: the machine computes `Decode`, whatever host transactions come between the
decoder's steps. -/
def Obligations.TheMachineComputesDecode : Prop :=
  ∀ (s : State) (es : List Event), Inv s → s.state = .idle →
    (∀ e ∈ es, e = .step ∨ e.isTransaction = true) →
    es.count .step + 1 = runLength s →
    s.pending = hostStart :: (es ++ [.step]) →
    ∃ t, Host.Core.run core (es.length + 2) s = .next t ∧ EndsAsDecode s t

/-- 43_sequencer.md R131: the end of a run depends on the configuration and the buffer alone, and on the
buffer only through the sample bits of its words: not on padding bits, not on the rest of `IN`, not on
`OUT`, not on `WORD`, not on the host's traffic. -/
def Obligations.OutcomeDependsOnConfigurationAndBufferAlone : Prop :=
  ∀ (s s' : State) (es es' : List Event), Inv s → Inv s' → s.state = .idle → s'.state = .idle →
    s.params = s'.params → s.cfg = s'.cfg →
    (∀ i, i < s.cfg.nw → wordAt s.cfg.wb (inByte s) i % 2 ^ (s.cfg.s.toNat * s.cfg.b.toNat) =
      wordAt s.cfg.wb (inByte s') i % 2 ^ (s.cfg.s.toNat * s.cfg.b.toNat)) →
    (∀ e ∈ es, e = .step ∨ e.isTransaction = true) → (∀ e ∈ es', e = .step ∨ e.isTransaction = true) →
    es.count .step + 1 = runLength s → es'.count .step + 1 = runLength s' →
    s.pending = hostStart :: (es ++ [.step]) → s'.pending = hostStart :: (es' ++ [.step]) →
    ∃ t t', Host.Core.run core (es.length + 2) s = .next t ∧
      Host.Core.run core (es'.length + 2) s' = .next t' ∧
      t.state = t'.state ∧ t.err = t'.err ∧
      (t.state = .done → ∀ i, i < s.cfg.n → outCell t i = outCell t' i)
end

