-- ==== Sys2Proof/Laws/Memory.lean ====
section
/-! SUPPORT. The laws of the two memories: a read after a write, the canonical form, and that equal
memories are equal lists. -/

namespace Sys2Proof.Machine

variable {α : Type}

@[simp] theorem Memory.get_nil (a : Nat) : Memory.get ([] : List (Nat × α)) a = none := rfl

theorem Memory.get_set (m : List (Nat × α)) (a b : Nat) (v : α) :
    Memory.get (Memory.set m a v) b = if b = a then some v else Memory.get m b := by
  induction m with
  | nil => rfl
  | cons e m ih =>
    obtain ⟨c, u⟩ := e
    by_cases h1 : a < c
    · simp [Memory.set, h1, Memory.get]
    · by_cases h2 : a = c
      · subst h2
        by_cases h3 : b = a <;> simp [Memory.set, Memory.get, h3]
      · by_cases h3 : b = c
        · subst h3
          simp [Memory.set, Memory.get, h1, h2, Ne.symm h2]
        · simp [Memory.set, Memory.get, h1, h2, h3, ih]

@[simp] theorem Memory.get_set_self (m : List (Nat × α)) (a : Nat) (v : α) :
    Memory.get (Memory.set m a v) a = some v := by simp [Memory.get_set]

theorem Memory.get_set_ne (m : List (Nat × α)) {a b : Nat} (v : α) (h : b ≠ a) :
    Memory.get (Memory.set m a v) b = Memory.get m b := by simp [Memory.get_set, h]

/-- Whatever holds of every old address and of the written one holds of every new address. -/
theorem Memory.all_set (P : Nat → Bool) (m : List (Nat × α)) (a : Nat) (v : α)
    (ha : P a = true) (h : (m.all fun e => P e.1) = true) :
    ((Memory.set m a v).all fun e => P e.1) = true := by
  induction m with
  | nil => simp [Memory.set, ha]
  | cons e m ih =>
    simp only [List.all_cons, Bool.and_eq_true] at h
    unfold Memory.set
    split
    · simp [ha, h.1, h.2]
    · split
      · simp [ha, h.2]
      · simp [h.1, ih h.2]

/-- A write keeps the canonical form. -/
theorem Memory.wf_set (m : List (Nat × α)) (a : Nat) (v : α) (h : Memory.wf m = true) :
    Memory.wf (Memory.set m a v) = true := by
  induction m with
  | nil => rfl
  | cons e m ih =>
    obtain ⟨c, u⟩ := e
    simp only [Memory.wf, Bool.and_eq_true] at h
    unfold Memory.set
    split
    next hlt =>
      simp only [Memory.wf, List.all_cons, Bool.and_eq_true, decide_eq_true_eq]
      refine ⟨⟨hlt, ?_⟩, h⟩
      rw [List.all_eq_true]
      intro x hx
      have := List.all_eq_true.mp h.1 x hx
      simp only [decide_eq_true_eq] at this ⊢
      omega
    next hge =>
      split
      next heq => subst heq; simpa [Memory.wf] using h
      next hne =>
        simp only [Memory.wf, Bool.and_eq_true]
        exact ⟨Memory.all_set (fun x => decide (c < x)) m a v (by simp; omega) h.1, ih h.2⟩

/-- A write inside the size keeps the memory inside the size. -/
theorem Memory.below_set (size : Nat) (m : List (Nat × α)) (a : Nat) (v : α) (ha : a < size)
    (h : Memory.below size m = true) : Memory.below size (Memory.set m a v) = true :=
  Memory.all_set (fun x => decide (x < size)) m a v (by simpa using ha) h

theorem Memory.get_none_of_all_lt (m : List (Nat × α)) (a : Nat)
    (h : (m.all fun e => decide (a < e.1)) = true) : Memory.get m a = none := by
  induction m with
  | nil => rfl
  | cons e m ih =>
    simp only [List.all_cons, Bool.and_eq_true, decide_eq_true_eq] at h
    have : a ≠ e.1 := by omega
    simp [Memory.get, this, ih h.2]

/-- Canonical memories that read alike are equal lists. -/
theorem Memory.ext (m n : List (Nat × α)) (hm : Memory.wf m = true) (hn : Memory.wf n = true)
    (h : ∀ a, Memory.get m a = Memory.get n a) : m = n := by
  induction m generalizing n with
  | nil =>
    cases n with
    | nil => rfl
    | cons e n => have := h e.1; simp [Memory.get] at this
  | cons d m ih =>
    obtain ⟨a, u⟩ := d
    cases n with
    | nil => have := h a; simp [Memory.get] at this
    | cons e n =>
      obtain ⟨b, v⟩ := e
      simp only [Memory.wf, Bool.and_eq_true] at hm hn
      have hab : a = b := by
        rcases lt_trichotomy a b with hlt | heq | hgt
        · have hb : Memory.get ((b, v) :: n) a = none := by
            apply Memory.get_none_of_all_lt
            simp only [List.all_cons, Bool.and_eq_true, decide_eq_true_eq]
            refine ⟨hlt, List.all_eq_true.mpr fun x hx => ?_⟩
            have := List.all_eq_true.mp hn.1 x hx
            simp only [decide_eq_true_eq] at this ⊢
            omega
          have := h a
          rw [hb] at this
          simp [Memory.get] at this
        · exact heq
        · have hb : Memory.get ((a, u) :: m) b = none := by
            apply Memory.get_none_of_all_lt
            simp only [List.all_cons, Bool.and_eq_true, decide_eq_true_eq]
            refine ⟨hgt, List.all_eq_true.mpr fun x hx => ?_⟩
            have := List.all_eq_true.mp hm.1 x hx
            simp only [decide_eq_true_eq] at this ⊢
            omega
          have := h b
          rw [hb] at this
          simp [Memory.get] at this
      subst hab
      have huv : u = v := by have := h a; simpa [Memory.get] using this
      subst huv
      congr 1
      apply ih n hm.2 hn.2
      intro x
      by_cases hx : x = a
      · subst hx
        rw [Memory.get_none_of_all_lt m x hm.1, Memory.get_none_of_all_lt n x hn.1]
      · have := h x
        simpa [Memory.get, hx] using this

end Sys2Proof.Machine
end

