-- ==== Sys2Proof/Laws/Operands.lean ====
section
/-! SUPPORT. The laws of the pure functions: bits of sums, words, samples and reversals. -/

namespace Sys2Proof.Machine

theorem bit_eq (v i : Nat) : bit v i = if v.testBit i then 1 else 0 := by
  unfold bit; cases v.testBit i <;> rfl

theorem bit_le_one (v i : Nat) : bit v i ≤ 1 := by
  unfold bit; cases v.testBit i <;> decide

theorem sumBelow_congr {n : Nat} {f g : Nat → Nat} (h : ∀ i, i < n → f i = g i) :
    sumBelow n f = sumBelow n g := by
  induction n with
  | zero => rfl
  | succ n ih => simp only [sumBelow]; rw [ih fun i hi => h i (by omega), h n (by omega)]

/-- The first term taken off a sum. -/
theorem sumBelow_succ_left (n : Nat) (f : Nat → Nat) :
    sumBelow (n + 1) f = f 0 + sumBelow n fun i => f (i + 1) := by
  induction n with
  | zero => simp [sumBelow]
  | succ n ih => rw [sumBelow, ih]; simp only [sumBelow]; omega

/-- A sum read from the other end. -/
theorem sumBelow_reverse (n : Nat) (f : Nat → Nat) :
    sumBelow n f = sumBelow n fun i => f (n - 1 - i) := by
  induction n with
  | zero => rfl
  | succ n ih =>
    rw [sumBelow_succ_left n fun i => f (n + 1 - 1 - i), sumBelow, ih]
    have : sumBelow n (fun i => f (n + 1 - 1 - (i + 1))) = sumBelow n fun i => f (n - 1 - i) :=
      sumBelow_congr fun i _ => by congr 1; omega
    rw [this]
    simp
    omega

theorem mul_sumBelow (c n : Nat) (f : Nat → Nat) :
    sumBelow n (fun i => c * f i) = c * sumBelow n f := by
  induction n with
  | zero => rfl
  | succ n ih => simp only [sumBelow, ih, Nat.mul_add]

/-- A sum of digits in base `2^w` stays below its number of digits. -/
theorem sumBelow_digits_lt (w n : Nat) (f : Nat → Nat) (h : ∀ i, i < n → f i < 2 ^ w) :
    sumBelow n (fun i => f i * 2 ^ (w * i)) < 2 ^ (w * n) := by
  induction n with
  | zero => simp [sumBelow]
  | succ n ih =>
    have h1 := ih fun i hi => h i (by omega)
    have h2 := h n (by omega)
    simp only [sumBelow]
    have : 2 ^ (w * (n + 1)) = 2 ^ w * 2 ^ (w * n) := by rw [← pow_add]; congr 1; ring
    rw [this]
    calc _ < 2 ^ (w * n) + f n * 2 ^ (w * n) := by omega
      _ = (f n + 1) * 2 ^ (w * n) := by ring
      _ ≤ _ := Nat.mul_le_mul_right _ h2

/-- Digit `j` of a sum of digits in base `2^w`. -/
theorem sumBelow_digit (w n j : Nat) (f : Nat → Nat) (h : ∀ i, i < n → f i < 2 ^ w) (hj : j < n) :
    sumBelow n (fun i => f i * 2 ^ (w * i)) / 2 ^ (w * j) % 2 ^ w = f j := by
  induction n with
  | zero => omega
  | succ n ih =>
    simp only [sumBelow]
    by_cases hjn : j = n
    · subst hjn
      have h1 := sumBelow_digits_lt w j f fun i hi => h i (by omega)
      rw [Nat.add_mul_div_right _ _ (by positivity), Nat.div_eq_of_lt h1, Nat.zero_add,
        Nat.mod_eq_of_lt (h j (by omega))]
    · have hlt : j < n := by omega
      have e : 2 ^ (w * n) = 2 ^ w * 2 ^ (w * (n - 1 - j)) * 2 ^ (w * j) := by
        rw [← pow_add, ← pow_add]; congr 1
        have : n = 1 + (n - 1 - j) + j := by omega
        conv_lhs => rw [this]
        ring
      rw [e, show f n * (2 ^ w * 2 ^ (w * (n - 1 - j)) * 2 ^ (w * j)) =
        (2 ^ w * (f n * 2 ^ (w * (n - 1 - j)))) * 2 ^ (w * j) by ring,
        Nat.add_mul_div_right _ _ (by positivity), Nat.add_mul_mod_self_left]
      exact ih (fun i hi => h i (by omega)) hlt

/-- Bit `j` of a sum of bits. -/
theorem testBit_sumBits (n j : Nat) (f : Nat → Nat) (h : ∀ i, f i ≤ 1) :
    (sumBelow n fun i => f i * 2 ^ i).testBit j = (decide (j < n) && decide (f j = 1)) := by
  have hb : ∀ i, i < n → f i < 2 ^ 1 := fun i _ => by have := h i; omega
  by_cases hj : j < n
  · have := sumBelow_digit 1 n j f hb hj
    simp only [Nat.one_mul, pow_one] at this
    rw [Nat.testBit_eq_decide_div_mod_eq, this]
    simp [hj]
  · have := sumBelow_digits_lt 1 n f hb
    simp only [Nat.one_mul] at this
    rw [Nat.testBit_lt_two_pow (lt_of_lt_of_le this (Nat.pow_le_pow_right (by omega) (by omega)))]
    simp [hj]

/-- What `BitRev` does to each bit. -/
theorem testBit_bitRev (n x j : Nat) :
    (bitRev n x).testBit j = (decide (j < n) && x.testBit (n - 1 - j)) := by
  unfold bitRev
  rw [sumBelow_reverse]
  have : (sumBelow n fun i => bit x (n - 1 - i) * 2 ^ (n - 1 - (n - 1 - i))) =
      sumBelow n fun i => bit x (n - 1 - i) * 2 ^ i :=
    sumBelow_congr fun i hi => by congr 2; omega
  rw [this, testBit_sumBits n j (fun i => bit x (n - 1 - i)) fun i => bit_le_one x _]
  simp only [bit_eq]
  cases x.testBit (n - 1 - j) <;> simp

theorem bitRev_lt (n x : Nat) : bitRev n x < 2 ^ n := by
  apply Nat.lt_pow_two_of_testBit
  intro i hi
  simp [testBit_bitRev, Nat.not_lt.mpr hi]

/-- What `zext` does to each bit. -/
theorem testBit_zeroExtend (b o raw j : Nat) :
    (zeroExtend b o raw).testBit j = (decide (j < o) && decide (j < b) && raw.testBit j) := by
  unfold zeroExtend
  rw [testBit_sumBits o j (fun i => if i < b then bit raw i else 0)
    fun i => by split; exacts [bit_le_one raw i, by omega]]
  by_cases hb : j < b <;> simp [hb, bit_eq]

theorem zeroExtend_of_lt {b o raw : Nat} (hbo : b ≤ o) (h : raw < 2 ^ b) :
    zeroExtend b o raw = raw := by
  apply Nat.eq_of_testBit_eq
  intro j
  rw [testBit_zeroExtend]
  by_cases hj : j < b
  · simp [hj, lt_of_lt_of_le hj hbo]
  · have : raw.testBit j = false :=
      Nat.testBit_lt_two_pow (lt_of_lt_of_le h (Nat.pow_le_pow_right (by omega) (by omega)))
    simp [this]

theorem normalizeSample_lt (b o raw : Nat) : normalizeSample b o raw < 2 ^ o := bitRev_lt _ _

/-- `Extract` in the quotient form. -/
theorem extractSample_eq (b word k : Nat) :
    extractSample b word k = word / 2 ^ (k * b) % 2 ^ b := by
  unfold extractSample
  rw [Nat.one_shiftLeft, Nat.and_two_pow_sub_one_eq_mod, Nat.shiftRight_eq_div_pow]

theorem testBit_extractSample (b word k i : Nat) :
    (extractSample b word k).testBit i = (decide (i < b) && word.testBit (k * b + i)) := by
  rw [extractSample_eq, Nat.testBit_mod_two_pow, Nat.testBit_div_two_pow, Nat.add_comm]

theorem extractSample_lt (b word k : Nat) : extractSample b word k < 2 ^ b := by
  rw [extractSample_eq]; exact Nat.mod_lt _ (by positivity)

theorem rawAt_lt (c : Cfg) (inp : Nat → Byte) (p : Nat) : rawAt c inp p < 2 ^ c.b.toNat :=
  extractSample_lt _ _ _

theorem normAt_lt (c : Cfg) (inp : Nat → Byte) (p : Nat) : normAt c inp p < 2 ^ c.o.toNat :=
  normalizeSample_lt _ _ _

theorem wordAt_lt (wb : Nat) (inp : Nat → Byte) (i : Nat) : wordAt wb inp i < 2 ^ (8 * wb) :=
  sumBelow_digits_lt 8 wb (fun j => (inp (i * wb + j)).toNat) fun _ _ => (inp _).isLt

/-- Byte `j` of a word is the byte at its address plus `j`. -/
theorem wordAt_byte (wb : Nat) (inp : Nat → Byte) (i j : Nat) (hj : j < wb) :
    wordAt wb inp i / 2 ^ (8 * j) % 2 ^ 8 = (inp (i * wb + j)).toNat :=
  sumBelow_digit 8 wb j (fun j => (inp (i * wb + j)).toNat) (fun _ _ => (inp _).isLt) hj

/-- A word depends on its own bytes alone. -/
theorem wordAt_congr {wb : Nat} {inp inp' : Nat → Byte} {i : Nat}
    (h : ∀ j, j < wb → inp (i * wb + j) = inp' (i * wb + j)) : wordAt wb inp i = wordAt wb inp' i :=
  sumBelow_congr fun j hj => by rw [h j hj]

@[simp] theorem rawSeq_length (c : Cfg) (inp : Nat → Byte) : (rawSeq c inp).length = c.ns := by
  simp [rawSeq]

@[simp] theorem normSeq_length (c : Cfg) (inp : Nat → Byte) : (normSeq c inp).length = c.ns := by
  simp [normSeq]

theorem normSeq_get (c : Cfg) (inp : Nat → Byte) (p : Nat) (h : p < c.ns) :
    (normSeq c inp)[p]? = some (normAt c inp p) := by
  simp [normSeq, rawSeq, normAt, h]

/-! The configuration checks. -/

/-- What a configuration that `CFGCHK` passes satisfies, one fact for each condition. -/
theorem cfgFails_eq_false_iff (p : Params) (c : Cfg) : cfgFails p c = false ↔
    c.w.toNat ≠ 0 ∧ c.w.toNat % 8 = 0 ∧ c.w.toNat ≤ p.wMax ∧ c.b.toNat ≠ 0 ∧ c.s.toNat ≠ 0 ∧
    c.s.toNat * c.b.toNat ≤ c.w.toNat ∧ c.b.toNat ≤ c.o.toNat ∧ c.o.toNat ≤ p.oMax ∧
    c.width.toNat ≠ 0 ∧ c.height.toNat ≠ 0 ∧ c.width.toNat * c.height.toNat ≤ p.outSize ∧
    c.len.toNat ≤ p.inSize := by
  simp only [cfgFails, decide_eq_false_iff_not, not_or, not_lt, gt_iff_lt, ne_eq, not_not]
  tauto

theorem checkError_eq_none_iff (p : Params) (c : Cfg) :
    checkError p c = none ↔ cfgFails p c = false ∧ lenFails c = false ∧ dimFails c = false := by
  unfold checkError
  cases cfgFails p c <;> cases lenFails c <;> cases dimFails c <;> simp

@[simp] theorem lenFails_eq_false_iff (c : Cfg) : lenFails c = false ↔ c.len.toNat % c.wb = 0 := by
  simp [lenFails]

@[simp] theorem dimFails_eq_false_iff (c : Cfg) : dimFails c = false ↔ c.ns = c.n := by
  simp [dimFails]

/-- The counts of a legal configuration (43_sequencer.md R122: "After a pass, `N ≥ 1`, `NW ≥ 1`,
`NW * S = N`"), and the buffer as whole words. -/
theorem legal_counts {p : Params} {c : Cfg} (h : checkError p c = none) :
    0 < c.wb ∧ 0 < c.s.toNat ∧ c.nw * c.s.toNat = c.n ∧ 0 < c.n ∧ 0 < c.nw ∧
    c.nw * c.wb = c.len.toNat ∧ c.wb * 8 = c.w.toNat ∧ c.len.toNat ≤ p.inSize ∧ c.n ≤ p.outSize := by
  rw [checkError_eq_none_iff, cfgFails_eq_false_iff, lenFails_eq_false_iff, dimFails_eq_false_iff] at h
  obtain ⟨⟨h0, h8, -, -, hs, -, -, -, hw, hh, hout, hin⟩, hlen, hdim⟩ := h
  have hwb : c.wb * 8 = c.w.toNat := by unfold Cfg.wb; omega
  have hn : 0 < c.n := Nat.mul_pos (by omega) (by omega)
  have hns : c.nw * c.s.toNat = c.n := hdim
  have hnw : 0 < c.nw := by
    rcases Nat.eq_zero_or_pos c.nw with h | h
    · rw [h] at hns; omega
    · exact h
  exact ⟨by omega, by omega, hns, hn, hnw, Nat.div_mul_cancel (Nat.dvd_of_mod_eq_zero hlen), hwb, hin, hout⟩

end Sys2Proof.Machine
end

