-- ==== Sys2Proof/Laws/State.lean ====
section
/-! SUPPORT. One lemma for each field under each update of State, so that no proof unfolds a record. -/

namespace Sys2Proof.Machine

/-! `raise`. -/

@[simp] theorem raise_params (e : ErrCode) (s : State) : (raise e s).params = s.params := rfl
@[simp] theorem raise_cfg (e : ErrCode) (s : State) : (raise e s).cfg = s.cfg := rfl
@[simp] theorem raise_state (e : ErrCode) (s : State) : (raise e s).state = .error := rfl
@[simp] theorem raise_err (e : ErrCode) (s : State) : (raise e s).err = e := rfl
@[simp] theorem raise_phase (e : ErrCode) (s : State) : (raise e s).phase = s.phase := rfl
@[simp] theorem raise_widx (e : ErrCode) (s : State) : (raise e s).widx = s.widx := rfl
@[simp] theorem raise_kidx (e : ErrCode) (s : State) : (raise e s).kidx = s.kidx := rfl
@[simp] theorem raise_oidx (e : ErrCode) (s : State) : (raise e s).oidx = s.oidx := rfl
@[simp] theorem raise_word (e : ErrCode) (s : State) : (raise e s).word = s.word := rfl
@[simp] theorem raise_inMem (e : ErrCode) (s : State) : (raise e s).inMem = s.inMem := rfl
@[simp] theorem raise_outMem (e : ErrCode) (s : State) : (raise e s).outMem = s.outMem := rfl
@[simp] theorem raise_epoch (e : ErrCode) (s : State) : (raise e s).epoch = s.epoch := rfl
@[simp] theorem raise_draws (e : ErrCode) (s : State) : (raise e s).draws = s.draws := rfl
@[simp] theorem raise_path (e : ErrCode) (s : State) : (raise e s).path = s.path := rfl
@[simp] theorem raise_pending (e : ErrCode) (s : State) : (raise e s).pending = s.pending := rfl
@[simp] theorem raise_response (e : ErrCode) (s : State) : (raise e s).response = s.response := rfl

/-! `acknowledge`. -/

@[simp] theorem acknowledge_params (s : State) : (acknowledge s).params = s.params := rfl
@[simp] theorem acknowledge_cfg (s : State) : (acknowledge s).cfg = s.cfg := rfl
@[simp] theorem acknowledge_state (s : State) : (acknowledge s).state = .idle := rfl
@[simp] theorem acknowledge_err (s : State) : (acknowledge s).err = .none := rfl
@[simp] theorem acknowledge_phase (s : State) : (acknowledge s).phase = s.phase := rfl
@[simp] theorem acknowledge_widx (s : State) : (acknowledge s).widx = s.widx := rfl
@[simp] theorem acknowledge_kidx (s : State) : (acknowledge s).kidx = s.kidx := rfl
@[simp] theorem acknowledge_oidx (s : State) : (acknowledge s).oidx = s.oidx := rfl
@[simp] theorem acknowledge_word (s : State) : (acknowledge s).word = s.word := rfl
@[simp] theorem acknowledge_inMem (s : State) : (acknowledge s).inMem = s.inMem := rfl
@[simp] theorem acknowledge_outMem (s : State) : (acknowledge s).outMem = s.outMem := rfl
@[simp] theorem acknowledge_epoch (s : State) : (acknowledge s).epoch = s.epoch := rfl
@[simp] theorem acknowledge_draws (s : State) : (acknowledge s).draws = s.draws := rfl
@[simp] theorem acknowledge_path (s : State) : (acknowledge s).path = s.path := rfl
@[simp] theorem acknowledge_pending (s : State) : (acknowledge s).pending = s.pending := rfl
@[simp] theorem acknowledge_response (s : State) : (acknowledge s).response = s.response := rfl

/-! `respond`. -/

@[simp] theorem respond_params (r : Response) (s : State) : (respond r s).params = s.params := rfl
@[simp] theorem respond_cfg (r : Response) (s : State) : (respond r s).cfg = s.cfg := rfl
@[simp] theorem respond_state (r : Response) (s : State) : (respond r s).state = s.state := rfl
@[simp] theorem respond_err (r : Response) (s : State) : (respond r s).err = s.err := rfl
@[simp] theorem respond_phase (r : Response) (s : State) : (respond r s).phase = s.phase := rfl
@[simp] theorem respond_widx (r : Response) (s : State) : (respond r s).widx = s.widx := rfl
@[simp] theorem respond_kidx (r : Response) (s : State) : (respond r s).kidx = s.kidx := rfl
@[simp] theorem respond_oidx (r : Response) (s : State) : (respond r s).oidx = s.oidx := rfl
@[simp] theorem respond_word (r : Response) (s : State) : (respond r s).word = s.word := rfl
@[simp] theorem respond_inMem (r : Response) (s : State) : (respond r s).inMem = s.inMem := rfl
@[simp] theorem respond_outMem (r : Response) (s : State) : (respond r s).outMem = s.outMem := rfl
@[simp] theorem respond_epoch (r : Response) (s : State) : (respond r s).epoch = s.epoch := rfl
@[simp] theorem respond_draws (r : Response) (s : State) : (respond r s).draws = s.draws := rfl
@[simp] theorem respond_path (r : Response) (s : State) : (respond r s).path = s.path := rfl
@[simp] theorem respond_pending (r : Response) (s : State) : (respond r s).pending = s.pending := rfl
@[simp] theorem respond_response (r : Response) (s : State) : (respond r s).response = some r := rfl

/-! `respondAny`. -/

@[simp] theorem respondAny_params (s : State) : (respondAny s).params = s.params := rfl
@[simp] theorem respondAny_cfg (s : State) : (respondAny s).cfg = s.cfg := rfl
@[simp] theorem respondAny_state (s : State) : (respondAny s).state = s.state := rfl
@[simp] theorem respondAny_err (s : State) : (respondAny s).err = s.err := rfl
@[simp] theorem respondAny_phase (s : State) : (respondAny s).phase = s.phase := rfl
@[simp] theorem respondAny_widx (s : State) : (respondAny s).widx = s.widx := rfl
@[simp] theorem respondAny_kidx (s : State) : (respondAny s).kidx = s.kidx := rfl
@[simp] theorem respondAny_oidx (s : State) : (respondAny s).oidx = s.oidx := rfl
@[simp] theorem respondAny_word (s : State) : (respondAny s).word = s.word := rfl
@[simp] theorem respondAny_inMem (s : State) : (respondAny s).inMem = s.inMem := rfl
@[simp] theorem respondAny_outMem (s : State) : (respondAny s).outMem = s.outMem := rfl
@[simp] theorem respondAny_epoch (s : State) : (respondAny s).epoch = s.epoch := rfl
@[simp] theorem respondAny_draws (s : State) : (respondAny s).draws = s.draws + 1 := rfl
@[simp] theorem respondAny_path (s : State) : (respondAny s).path = s.path := rfl
@[simp] theorem respondAny_pending (s : State) : (respondAny s).pending = s.pending := rfl
@[simp] theorem respondAny_response (s : State) : (respondAny s).response = some (.cell (Config.freeRead s.draws s.params.oMax).toNat) := rfl

/-! `setIn`. -/

@[simp] theorem setIn_params (a : Nat) (b : Byte) (s : State) : (setIn a b s).params = s.params := rfl
@[simp] theorem setIn_cfg (a : Nat) (b : Byte) (s : State) : (setIn a b s).cfg = s.cfg := rfl
@[simp] theorem setIn_state (a : Nat) (b : Byte) (s : State) : (setIn a b s).state = s.state := rfl
@[simp] theorem setIn_err (a : Nat) (b : Byte) (s : State) : (setIn a b s).err = s.err := rfl
@[simp] theorem setIn_phase (a : Nat) (b : Byte) (s : State) : (setIn a b s).phase = s.phase := rfl
@[simp] theorem setIn_widx (a : Nat) (b : Byte) (s : State) : (setIn a b s).widx = s.widx := rfl
@[simp] theorem setIn_kidx (a : Nat) (b : Byte) (s : State) : (setIn a b s).kidx = s.kidx := rfl
@[simp] theorem setIn_oidx (a : Nat) (b : Byte) (s : State) : (setIn a b s).oidx = s.oidx := rfl
@[simp] theorem setIn_word (a : Nat) (b : Byte) (s : State) : (setIn a b s).word = s.word := rfl
@[simp] theorem setIn_inMem (a : Nat) (b : Byte) (s : State) : (setIn a b s).inMem = Memory.set s.inMem a b := rfl
@[simp] theorem setIn_outMem (a : Nat) (b : Byte) (s : State) : (setIn a b s).outMem = s.outMem := rfl
@[simp] theorem setIn_epoch (a : Nat) (b : Byte) (s : State) : (setIn a b s).epoch = s.epoch := rfl
@[simp] theorem setIn_draws (a : Nat) (b : Byte) (s : State) : (setIn a b s).draws = s.draws := rfl
@[simp] theorem setIn_path (a : Nat) (b : Byte) (s : State) : (setIn a b s).path = s.path := rfl
@[simp] theorem setIn_pending (a : Nat) (b : Byte) (s : State) : (setIn a b s).pending = s.pending := rfl
@[simp] theorem setIn_response (a : Nat) (b : Byte) (s : State) : (setIn a b s).response = s.response := rfl

/-! `setOut`. -/

@[simp] theorem setOut_params (i v : Nat) (s : State) : (setOut i v s).params = s.params := rfl
@[simp] theorem setOut_cfg (i v : Nat) (s : State) : (setOut i v s).cfg = s.cfg := rfl
@[simp] theorem setOut_state (i v : Nat) (s : State) : (setOut i v s).state = s.state := rfl
@[simp] theorem setOut_err (i v : Nat) (s : State) : (setOut i v s).err = s.err := rfl
@[simp] theorem setOut_phase (i v : Nat) (s : State) : (setOut i v s).phase = s.phase := rfl
@[simp] theorem setOut_widx (i v : Nat) (s : State) : (setOut i v s).widx = s.widx := rfl
@[simp] theorem setOut_kidx (i v : Nat) (s : State) : (setOut i v s).kidx = s.kidx := rfl
@[simp] theorem setOut_oidx (i v : Nat) (s : State) : (setOut i v s).oidx = s.oidx := rfl
@[simp] theorem setOut_word (i v : Nat) (s : State) : (setOut i v s).word = s.word := rfl
@[simp] theorem setOut_inMem (i v : Nat) (s : State) : (setOut i v s).inMem = s.inMem := rfl
@[simp] theorem setOut_outMem (i v : Nat) (s : State) : (setOut i v s).outMem = Memory.set s.outMem i v := rfl
@[simp] theorem setOut_epoch (i v : Nat) (s : State) : (setOut i v s).epoch = s.epoch := rfl
@[simp] theorem setOut_draws (i v : Nat) (s : State) : (setOut i v s).draws = s.draws := rfl
@[simp] theorem setOut_path (i v : Nat) (s : State) : (setOut i v s).path = s.path := rfl
@[simp] theorem setOut_pending (i v : Nat) (s : State) : (setOut i v s).pending = s.pending := rfl
@[simp] theorem setOut_response (i v : Nat) (s : State) : (setOut i v s).response = s.response := rfl

/-! `extractStage`. -/

@[simp] theorem extractStage_params (s : State) : (extractStage s).params = s.params := rfl
@[simp] theorem extractStage_cfg (s : State) : (extractStage s).cfg = s.cfg := rfl
@[simp] theorem extractStage_state (s : State) : (extractStage s).state = s.state := rfl
@[simp] theorem extractStage_err (s : State) : (extractStage s).err = s.err := rfl
@[simp] theorem extractStage_phase (s : State) : (extractStage s).phase = s.phase := rfl
@[simp] theorem extractStage_widx (s : State) : (extractStage s).widx = s.widx := rfl
@[simp] theorem extractStage_kidx (s : State) : (extractStage s).kidx = s.kidx := rfl
@[simp] theorem extractStage_oidx (s : State) : (extractStage s).oidx = s.oidx := rfl
@[simp] theorem extractStage_word (s : State) : (extractStage s).word = s.word := rfl
@[simp] theorem extractStage_inMem (s : State) : (extractStage s).inMem = s.inMem := rfl
@[simp] theorem extractStage_outMem (s : State) : (extractStage s).outMem = s.outMem := rfl
@[simp] theorem extractStage_epoch (s : State) : (extractStage s).epoch = s.epoch := rfl
@[simp] theorem extractStage_draws (s : State) : (extractStage s).draws = s.draws := rfl
@[simp] theorem extractStage_path (s : State) : (extractStage s).path = { s.path with raw := extractSample s.cfg.b.toNat s.word s.kidx.toNat } := rfl
@[simp] theorem extractStage_pending (s : State) : (extractStage s).pending = s.pending := rfl
@[simp] theorem extractStage_response (s : State) : (extractStage s).response = s.response := rfl

/-! `zextStage`. -/

@[simp] theorem zextStage_params (s : State) : (zextStage s).params = s.params := rfl
@[simp] theorem zextStage_cfg (s : State) : (zextStage s).cfg = s.cfg := rfl
@[simp] theorem zextStage_state (s : State) : (zextStage s).state = s.state := rfl
@[simp] theorem zextStage_err (s : State) : (zextStage s).err = s.err := rfl
@[simp] theorem zextStage_phase (s : State) : (zextStage s).phase = s.phase := rfl
@[simp] theorem zextStage_widx (s : State) : (zextStage s).widx = s.widx := rfl
@[simp] theorem zextStage_kidx (s : State) : (zextStage s).kidx = s.kidx := rfl
@[simp] theorem zextStage_oidx (s : State) : (zextStage s).oidx = s.oidx := rfl
@[simp] theorem zextStage_word (s : State) : (zextStage s).word = s.word := rfl
@[simp] theorem zextStage_inMem (s : State) : (zextStage s).inMem = s.inMem := rfl
@[simp] theorem zextStage_outMem (s : State) : (zextStage s).outMem = s.outMem := rfl
@[simp] theorem zextStage_epoch (s : State) : (zextStage s).epoch = s.epoch := rfl
@[simp] theorem zextStage_draws (s : State) : (zextStage s).draws = s.draws := rfl
@[simp] theorem zextStage_path (s : State) : (zextStage s).path = { s.path with x := zeroExtend s.cfg.b.toNat s.cfg.o.toNat s.path.raw } := rfl
@[simp] theorem zextStage_pending (s : State) : (zextStage s).pending = s.pending := rfl
@[simp] theorem zextStage_response (s : State) : (zextStage s).response = s.response := rfl

/-! `bitrevStage`. -/

@[simp] theorem bitrevStage_params (s : State) : (bitrevStage s).params = s.params := rfl
@[simp] theorem bitrevStage_cfg (s : State) : (bitrevStage s).cfg = s.cfg := rfl
@[simp] theorem bitrevStage_state (s : State) : (bitrevStage s).state = s.state := rfl
@[simp] theorem bitrevStage_err (s : State) : (bitrevStage s).err = s.err := rfl
@[simp] theorem bitrevStage_phase (s : State) : (bitrevStage s).phase = s.phase := rfl
@[simp] theorem bitrevStage_widx (s : State) : (bitrevStage s).widx = s.widx := rfl
@[simp] theorem bitrevStage_kidx (s : State) : (bitrevStage s).kidx = s.kidx := rfl
@[simp] theorem bitrevStage_oidx (s : State) : (bitrevStage s).oidx = s.oidx := rfl
@[simp] theorem bitrevStage_word (s : State) : (bitrevStage s).word = s.word := rfl
@[simp] theorem bitrevStage_inMem (s : State) : (bitrevStage s).inMem = s.inMem := rfl
@[simp] theorem bitrevStage_outMem (s : State) : (bitrevStage s).outMem = s.outMem := rfl
@[simp] theorem bitrevStage_epoch (s : State) : (bitrevStage s).epoch = s.epoch := rfl
@[simp] theorem bitrevStage_draws (s : State) : (bitrevStage s).draws = s.draws := rfl
@[simp] theorem bitrevStage_path (s : State) : (bitrevStage s).path = { s.path with y := bitRev s.cfg.o.toNat s.path.x } := rfl
@[simp] theorem bitrevStage_pending (s : State) : (bitrevStage s).pending = s.pending := rfl
@[simp] theorem bitrevStage_response (s : State) : (bitrevStage s).response = s.response := rfl

/-! `writeCfg`: what it leaves alone. -/

@[simp] theorem writeCfg_params (f : Cfg → Cfg) (s : State) : (writeCfg f s).params = s.params := by
  unfold writeCfg; split_ifs <;> rfl
@[simp] theorem writeCfg_state (f : Cfg → Cfg) (s : State) : (writeCfg f s).state = s.state := by
  unfold writeCfg; split_ifs <;> rfl
@[simp] theorem writeCfg_err (f : Cfg → Cfg) (s : State) : (writeCfg f s).err = s.err := by
  unfold writeCfg; split_ifs <;> rfl
@[simp] theorem writeCfg_phase (f : Cfg → Cfg) (s : State) : (writeCfg f s).phase = s.phase := by
  unfold writeCfg; split_ifs <;> rfl
@[simp] theorem writeCfg_widx (f : Cfg → Cfg) (s : State) : (writeCfg f s).widx = s.widx := by
  unfold writeCfg; split_ifs <;> rfl
@[simp] theorem writeCfg_kidx (f : Cfg → Cfg) (s : State) : (writeCfg f s).kidx = s.kidx := by
  unfold writeCfg; split_ifs <;> rfl
@[simp] theorem writeCfg_oidx (f : Cfg → Cfg) (s : State) : (writeCfg f s).oidx = s.oidx := by
  unfold writeCfg; split_ifs <;> rfl
@[simp] theorem writeCfg_word (f : Cfg → Cfg) (s : State) : (writeCfg f s).word = s.word := by
  unfold writeCfg; split_ifs <;> rfl
@[simp] theorem writeCfg_inMem (f : Cfg → Cfg) (s : State) : (writeCfg f s).inMem = s.inMem := by
  unfold writeCfg; split_ifs <;> rfl
@[simp] theorem writeCfg_outMem (f : Cfg → Cfg) (s : State) : (writeCfg f s).outMem = s.outMem := by
  unfold writeCfg; split_ifs <;> rfl
@[simp] theorem writeCfg_epoch (f : Cfg → Cfg) (s : State) : (writeCfg f s).epoch = s.epoch := by
  unfold writeCfg; split_ifs <;> rfl
@[simp] theorem writeCfg_draws (f : Cfg → Cfg) (s : State) : (writeCfg f s).draws = s.draws := by
  unfold writeCfg; split_ifs <;> rfl
@[simp] theorem writeCfg_path (f : Cfg → Cfg) (s : State) : (writeCfg f s).path = s.path := by
  unfold writeCfg; split_ifs <;> rfl
@[simp] theorem writeCfg_pending (f : Cfg → Cfg) (s : State) : (writeCfg f s).pending = s.pending := by
  unfold writeCfg; split_ifs <;> rfl
@[simp] theorem writeCfg_response (f : Cfg → Cfg) (s : State) : (writeCfg f s).response = s.response := by
  unfold writeCfg; split_ifs <;> rfl

/-! `advanceStage`. -/

@[simp] theorem advanceStage_params (s : State) : (advanceStage s).params = s.params := rfl
@[simp] theorem advanceStage_cfg (s : State) : (advanceStage s).cfg = s.cfg := rfl
@[simp] theorem advanceStage_state (s : State) : (advanceStage s).state = s.state := rfl
@[simp] theorem advanceStage_err (s : State) : (advanceStage s).err = s.err := rfl
@[simp] theorem advanceStage_phase (s : State) : (advanceStage s).phase = s.phase := rfl
@[simp] theorem advanceStage_widx (s : State) :
    (advanceStage s).widx = if s.kidx.toNat + 1 = s.cfg.s.toNat then s.widx + 1 else s.widx := rfl
@[simp] theorem advanceStage_kidx (s : State) :
    (advanceStage s).kidx = if s.kidx.toNat + 1 = s.cfg.s.toNat then 0 else s.kidx + 1 := rfl
@[simp] theorem advanceStage_oidx (s : State) : (advanceStage s).oidx = s.oidx + 1 := rfl
@[simp] theorem advanceStage_word (s : State) : (advanceStage s).word = s.word := rfl
@[simp] theorem advanceStage_inMem (s : State) : (advanceStage s).inMem = s.inMem := rfl
@[simp] theorem advanceStage_outMem (s : State) : (advanceStage s).outMem = s.outMem := rfl
@[simp] theorem advanceStage_epoch (s : State) : (advanceStage s).epoch = s.epoch := rfl
@[simp] theorem advanceStage_draws (s : State) : (advanceStage s).draws = s.draws := rfl
@[simp] theorem advanceStage_path (s : State) : (advanceStage s).path = s.path := rfl
@[simp] theorem advanceStage_pending (s : State) : (advanceStage s).pending = s.pending := rfl
@[simp] theorem advanceStage_response (s : State) : (advanceStage s).response = s.response := rfl

/-! `finishStage`. -/

@[simp] theorem finishStage_params (s : State) : (finishStage s).params = s.params := rfl
@[simp] theorem finishStage_cfg (s : State) : (finishStage s).cfg = s.cfg := rfl
@[simp] theorem finishStage_state (s : State) :
    (finishStage s).state = if s.oidx.toNat = s.cfg.n then .done else s.state := rfl
@[simp] theorem finishStage_err (s : State) : (finishStage s).err = s.err := rfl
@[simp] theorem finishStage_phase (s : State) : (finishStage s).phase = s.phase := rfl
@[simp] theorem finishStage_widx (s : State) : (finishStage s).widx = s.widx := rfl
@[simp] theorem finishStage_kidx (s : State) : (finishStage s).kidx = s.kidx := rfl
@[simp] theorem finishStage_oidx (s : State) : (finishStage s).oidx = s.oidx := rfl
@[simp] theorem finishStage_word (s : State) : (finishStage s).word = s.word := rfl
@[simp] theorem finishStage_inMem (s : State) : (finishStage s).inMem = s.inMem := rfl
@[simp] theorem finishStage_outMem (s : State) : (finishStage s).outMem = s.outMem := rfl
@[simp] theorem finishStage_epoch (s : State) : (finishStage s).epoch = s.epoch := rfl
@[simp] theorem finishStage_draws (s : State) : (finishStage s).draws = s.draws := rfl
@[simp] theorem finishStage_path (s : State) : (finishStage s).path = s.path := rfl
@[simp] theorem finishStage_pending (s : State) : (finishStage s).pending = s.pending := rfl
@[simp] theorem finishStage_response (s : State) : (finishStage s).response = s.response := rfl

/-! `checkStep`: what it leaves alone. -/

@[simp] theorem checkStep_params (s : State) : (checkStep s).params = s.params := by
  unfold checkStep; split_ifs <;> rfl
@[simp] theorem checkStep_cfg (s : State) : (checkStep s).cfg = s.cfg := by
  unfold checkStep; split_ifs <;> rfl
@[simp] theorem checkStep_widx (s : State) : (checkStep s).widx = s.widx := by
  unfold checkStep; split_ifs <;> rfl
@[simp] theorem checkStep_kidx (s : State) : (checkStep s).kidx = s.kidx := by
  unfold checkStep; split_ifs <;> rfl
@[simp] theorem checkStep_oidx (s : State) : (checkStep s).oidx = s.oidx := by
  unfold checkStep; split_ifs <;> rfl
@[simp] theorem checkStep_word (s : State) : (checkStep s).word = s.word := by
  unfold checkStep; split_ifs <;> rfl
@[simp] theorem checkStep_inMem (s : State) : (checkStep s).inMem = s.inMem := by
  unfold checkStep; split_ifs <;> rfl
@[simp] theorem checkStep_outMem (s : State) : (checkStep s).outMem = s.outMem := by
  unfold checkStep; split_ifs <;> rfl
@[simp] theorem checkStep_epoch (s : State) : (checkStep s).epoch = s.epoch := by
  unfold checkStep; split_ifs <;> rfl
@[simp] theorem checkStep_draws (s : State) : (checkStep s).draws = s.draws := by
  unfold checkStep; split_ifs <;> rfl
@[simp] theorem checkStep_path (s : State) : (checkStep s).path = s.path := by
  unfold checkStep; split_ifs <;> rfl
@[simp] theorem checkStep_pending (s : State) : (checkStep s).pending = s.pending := by
  unfold checkStep; split_ifs <;> rfl
@[simp] theorem checkStep_response (s : State) : (checkStep s).response = s.response := by
  unfold checkStep; split_ifs <;> rfl

/-! `cfgchkStage`: what it leaves alone. -/

@[simp] theorem cfgchkStage_params (s : State) : (cfgchkStage s).params = s.params := by
  unfold cfgchkStage; split_ifs <;> rfl
@[simp] theorem cfgchkStage_cfg (s : State) : (cfgchkStage s).cfg = s.cfg := by
  unfold cfgchkStage; split_ifs <;> rfl
@[simp] theorem cfgchkStage_phase (s : State) : (cfgchkStage s).phase = s.phase := by
  unfold cfgchkStage; split_ifs <;> rfl
@[simp] theorem cfgchkStage_widx (s : State) : (cfgchkStage s).widx = s.widx := by
  unfold cfgchkStage; split_ifs <;> rfl
@[simp] theorem cfgchkStage_kidx (s : State) : (cfgchkStage s).kidx = s.kidx := by
  unfold cfgchkStage; split_ifs <;> rfl
@[simp] theorem cfgchkStage_oidx (s : State) : (cfgchkStage s).oidx = s.oidx := by
  unfold cfgchkStage; split_ifs <;> rfl
@[simp] theorem cfgchkStage_word (s : State) : (cfgchkStage s).word = s.word := by
  unfold cfgchkStage; split_ifs <;> rfl
@[simp] theorem cfgchkStage_inMem (s : State) : (cfgchkStage s).inMem = s.inMem := by
  unfold cfgchkStage; split_ifs <;> rfl
@[simp] theorem cfgchkStage_outMem (s : State) : (cfgchkStage s).outMem = s.outMem := by
  unfold cfgchkStage; split_ifs <;> rfl
@[simp] theorem cfgchkStage_epoch (s : State) : (cfgchkStage s).epoch = s.epoch := by
  unfold cfgchkStage; split_ifs <;> rfl
@[simp] theorem cfgchkStage_draws (s : State) : (cfgchkStage s).draws = s.draws := by
  unfold cfgchkStage; split_ifs <;> rfl
@[simp] theorem cfgchkStage_path (s : State) : (cfgchkStage s).path = s.path := by
  unfold cfgchkStage; split_ifs <;> rfl
@[simp] theorem cfgchkStage_pending (s : State) : (cfgchkStage s).pending = s.pending := by
  unfold cfgchkStage; split_ifs <;> rfl
@[simp] theorem cfgchkStage_response (s : State) : (cfgchkStage s).response = s.response := by
  unfold cfgchkStage; split_ifs <;> rfl

/-! `lenchkStage`: what it leaves alone. -/

@[simp] theorem lenchkStage_params (s : State) : (lenchkStage s).params = s.params := by
  unfold lenchkStage; split_ifs <;> rfl
@[simp] theorem lenchkStage_cfg (s : State) : (lenchkStage s).cfg = s.cfg := by
  unfold lenchkStage; split_ifs <;> rfl
@[simp] theorem lenchkStage_phase (s : State) : (lenchkStage s).phase = s.phase := by
  unfold lenchkStage; split_ifs <;> rfl
@[simp] theorem lenchkStage_widx (s : State) : (lenchkStage s).widx = s.widx := by
  unfold lenchkStage; split_ifs <;> rfl
@[simp] theorem lenchkStage_kidx (s : State) : (lenchkStage s).kidx = s.kidx := by
  unfold lenchkStage; split_ifs <;> rfl
@[simp] theorem lenchkStage_oidx (s : State) : (lenchkStage s).oidx = s.oidx := by
  unfold lenchkStage; split_ifs <;> rfl
@[simp] theorem lenchkStage_word (s : State) : (lenchkStage s).word = s.word := by
  unfold lenchkStage; split_ifs <;> rfl
@[simp] theorem lenchkStage_inMem (s : State) : (lenchkStage s).inMem = s.inMem := by
  unfold lenchkStage; split_ifs <;> rfl
@[simp] theorem lenchkStage_outMem (s : State) : (lenchkStage s).outMem = s.outMem := by
  unfold lenchkStage; split_ifs <;> rfl
@[simp] theorem lenchkStage_epoch (s : State) : (lenchkStage s).epoch = s.epoch := by
  unfold lenchkStage; split_ifs <;> rfl
@[simp] theorem lenchkStage_draws (s : State) : (lenchkStage s).draws = s.draws := by
  unfold lenchkStage; split_ifs <;> rfl
@[simp] theorem lenchkStage_path (s : State) : (lenchkStage s).path = s.path := by
  unfold lenchkStage; split_ifs <;> rfl
@[simp] theorem lenchkStage_pending (s : State) : (lenchkStage s).pending = s.pending := by
  unfold lenchkStage; split_ifs <;> rfl
@[simp] theorem lenchkStage_response (s : State) : (lenchkStage s).response = s.response := by
  unfold lenchkStage; split_ifs <;> rfl

/-! `dimchkStage`: what it leaves alone. -/

@[simp] theorem dimchkStage_params (s : State) : (dimchkStage s).params = s.params := by
  unfold dimchkStage; split_ifs <;> rfl
@[simp] theorem dimchkStage_cfg (s : State) : (dimchkStage s).cfg = s.cfg := by
  unfold dimchkStage; split_ifs <;> rfl
@[simp] theorem dimchkStage_phase (s : State) : (dimchkStage s).phase = s.phase := by
  unfold dimchkStage; split_ifs <;> rfl
@[simp] theorem dimchkStage_widx (s : State) : (dimchkStage s).widx = s.widx := by
  unfold dimchkStage; split_ifs <;> rfl
@[simp] theorem dimchkStage_kidx (s : State) : (dimchkStage s).kidx = s.kidx := by
  unfold dimchkStage; split_ifs <;> rfl
@[simp] theorem dimchkStage_oidx (s : State) : (dimchkStage s).oidx = s.oidx := by
  unfold dimchkStage; split_ifs <;> rfl
@[simp] theorem dimchkStage_word (s : State) : (dimchkStage s).word = s.word := by
  unfold dimchkStage; split_ifs <;> rfl
@[simp] theorem dimchkStage_inMem (s : State) : (dimchkStage s).inMem = s.inMem := by
  unfold dimchkStage; split_ifs <;> rfl
@[simp] theorem dimchkStage_outMem (s : State) : (dimchkStage s).outMem = s.outMem := by
  unfold dimchkStage; split_ifs <;> rfl
@[simp] theorem dimchkStage_epoch (s : State) : (dimchkStage s).epoch = s.epoch := by
  unfold dimchkStage; split_ifs <;> rfl
@[simp] theorem dimchkStage_draws (s : State) : (dimchkStage s).draws = s.draws := by
  unfold dimchkStage; split_ifs <;> rfl
@[simp] theorem dimchkStage_path (s : State) : (dimchkStage s).path = s.path := by
  unfold dimchkStage; split_ifs <;> rfl
@[simp] theorem dimchkStage_pending (s : State) : (dimchkStage s).pending = s.pending := by
  unfold dimchkStage; split_ifs <;> rfl
@[simp] theorem dimchkStage_response (s : State) : (dimchkStage s).response = s.response := by
  unfold dimchkStage; split_ifs <;> rfl

end Sys2Proof.Machine
end

