-- ==== Sys2Proof/Laws/Ops.lean ====
section
/-! SUPPORT. One lemma for each shared operation that says what it does. -/

namespace Sys2Proof.Machine

/-! Sequencing. -/

@[simp] theorem andThen_next (s : State) (f : State → Result) : andThen (.next s) f = f s := rfl

@[simp] theorem andThen_fault (e : Fault) (f : State → Result) : andThen (.fault e) f = .fault e := rfl

@[simp] theorem andThen_refused (e : Refusal) (f : State → Result) :
    andThen (.refused e) f = .refused e := rfl

theorem andThen_eq_next {r : Result} {f : State → Result} {t : State} :
    andThen r f = .next t ↔ ∃ s, r = .next s ∧ f s = .next t := by
  cases r <;> simp [andThen]

/-! Reading the memories. -/

/-- `IN` reads alike in states that hold the same bytes from the same reset. -/
theorem inByte_congr {s t : State} (h : t.inMem = s.inMem) (he : t.epoch = s.epoch) :
    inByte t = inByte s := by
  funext a; unfold inByte; rw [h, he]

/-- `OUT` reads alike in states that hold the same cells from the same reset. -/
theorem outCell_congr {s t : State} (h : t.outMem = s.outMem) (he : t.epoch = s.epoch)
    (hp : t.params = s.params) : outCell t = outCell s := by
  funext i; unfold outCell; rw [h, he, hp]

theorem inByte_setIn (a : Nat) (b : Byte) (s : State) (x : Nat) :
    inByte (setIn a b s) x = if x = a then b else inByte s x := by
  unfold inByte
  simp only [setIn_inMem, setIn_epoch, Memory.get_set]
  split_ifs <;> rfl

theorem outCell_setOut (i v : Nat) (s : State) (k : Nat) :
    outCell (setOut i v s) k = if k = i then v else outCell s k := by
  unfold outCell
  simp only [setOut_outMem, setOut_epoch, setOut_params, Memory.get_set]
  split_ifs <;> rfl

@[simp] theorem inByte_setOut (i v : Nat) (s : State) : inByte (setOut i v s) = inByte s :=
  inByte_congr rfl rfl

@[simp] theorem outCell_setIn (a : Nat) (b : Byte) (s : State) : outCell (setIn a b s) = outCell s :=
  outCell_congr rfl rfl rfl

/-! The sequencer's selection. -/

theorem selOf_eq_checkSel (s : State) :
    selOf s = checkSel ↔ s.state = .busy ∧ s.phase = .check := by
  unfold selOf
  cases s.state <;> cases s.phase <;> decide

theorem selOf_eq_runSel (s : State) : selOf s = runSel ↔ s.state = .busy ∧ s.phase = .run := by
  unfold selOf
  cases s.state <;> cases s.phase <;> decide

/-- An operation of the `CHECK` step where it is selected. -/
theorem inCheck_of_selected {f : State → State} {s : State} (h : s.state = .busy ∧ s.phase = .check) :
    inCheck f s = f s :=
  if_pos ((selOf_eq_checkSel s).mpr h)

/-- An operation of the `CHECK` step where it is not selected. -/
theorem inCheck_of_not_selected {f : State → State} {s : State}
    (h : ¬(s.state = .busy ∧ s.phase = .check)) : inCheck f s = s :=
  if_neg (mt (selOf_eq_checkSel s).mp h)

/-- An operation of the `RUN` step where it is selected, under a legal configuration. -/
theorem inRun_of_selected {f : State → Result} {s : State} (h : s.state = .busy ∧ s.phase = .run)
    (hc : cfgFails s.params s.cfg = false) : inRun f s = f s := by
  rw [inRun, if_pos ((selOf_eq_runSel s).mpr h), hc]; rfl

theorem inRun_of_not_selected {f : State → Result} {s : State}
    (h : ¬(s.state = .busy ∧ s.phase = .run)) : inRun f s = .next s :=
  if_neg (mt (selOf_eq_runSel s).mp h)

theorem inRun_of_illegal {f : State → Result} {s : State} (h : s.state = .busy ∧ s.phase = .run)
    (hc : cfgFails s.params s.cfg = true) : inRun f s = .fault .configNotLegal := by
  rw [inRun, if_pos ((selOf_eq_runSel s).mpr h), hc]; rfl

/-- Everything an operation of the `RUN` step can do, if it answers a next state. -/
theorem inRun_eq_next {f : State → Result} {s t : State} (h : inRun f s = .next t) :
    (s.state = .busy ∧ s.phase = .run ∧ cfgFails s.params s.cfg = false ∧ f s = .next t) ∨
    (¬(s.state = .busy ∧ s.phase = .run) ∧ t = s) := by
  by_cases hs : s.state = .busy ∧ s.phase = .run
  · cases hc : cfgFails s.params s.cfg
    · rw [inRun_of_selected hs hc] at h
      exact .inl ⟨hs.1, hs.2, rfl, h⟩
    · rw [inRun_of_illegal hs hc] at h; cases h
  · rw [inRun_of_not_selected hs] at h
    exact .inr ⟨hs, (Host.Outcome.next.inj h).symm⟩

/-! The stages that can stop. -/

/-- `FETCHW` at the first sample of a word that lies inside `IN`. -/
theorem fetchStage_of_first {s : State} (hk : s.kidx = 0)
    (h : s.widx.toNat * s.cfg.wb + s.cfg.wb ≤ s.params.inSize) :
    fetchStage s = .next { s with word := wordAt s.cfg.wb (inByte s) s.widx.toNat } := by
  rw [fetchStage, if_pos hk, if_pos h]

/-- `FETCHW` at a later sample of a word. -/
theorem fetchStage_of_later {s : State} (hk : s.kidx ≠ 0) : fetchStage s = .next s := if_neg hk

/-- `STORE` into a cell that exists. -/
theorem storeStage_of_lt {s : State} (h : s.oidx.toNat < s.params.outSize) :
    storeStage s = .next (setOut s.oidx.toNat s.path.y s) := if_pos h

/-- Everything `FETCHW` can do, if it answers a next state. -/
theorem fetchStage_eq_next {s t : State} (h : fetchStage s = .next t) :
    (s.kidx = 0 ∧ t = { s with word := wordAt s.cfg.wb (inByte s) s.widx.toNat }) ∨
    (s.kidx ≠ 0 ∧ t = s) := by
  unfold fetchStage at h
  split_ifs at h with h1 h2
  · exact .inl ⟨h1, (Host.Outcome.next.inj h).symm⟩
  · exact .inr ⟨h1, (Host.Outcome.next.inj h).symm⟩

/-- Everything `STORE` can do, if it answers a next state. -/
theorem storeStage_eq_next {s t : State} (h : storeStage s = .next t) :
    s.oidx.toNat < s.params.outSize ∧ t = setOut s.oidx.toNat s.path.y s := by
  unfold storeStage at h
  split_ifs at h with h1
  exact ⟨h1, (Host.Outcome.next.inj h).symm⟩

/-- Everything the body of the `RUN` step can do, if it answers a next state: the sample it stores and
the stages around it. -/
theorem runStep_eq_next {s t : State} (h : runStep s = .next t) :
    ∃ s1 s2, fetchStage s = .next s1 ∧
      s2 = setOut s1.oidx.toNat
        (normalizeSample s1.cfg.b.toNat s1.cfg.o.toNat (extractSample s1.cfg.b.toNat s1.word s1.kidx.toNat))
        (bitrevStage (zextStage (extractStage s1))) ∧
      s1.oidx.toNat < s1.params.outSize ∧ t = finishStage (advanceStage s2) := by
  unfold runStep at h
  obtain ⟨s1, h1, h⟩ := andThen_eq_next.mp h
  obtain ⟨s2, h2, h⟩ := andThen_eq_next.mp h
  obtain ⟨hlt, rfl⟩ := storeStage_eq_next h2
  exact ⟨s1, _, h1, rfl, hlt, (Host.Outcome.next.inj h).symm⟩

/-! Which event comes next. -/

@[simp] theorem nextEvent_nil {s : State} (h : s.pending = []) : nextEvent s = (.step, s) := by
  simp [nextEvent, h]

@[simp] theorem nextEvent_cons {s : State} {e : Event} {rest : List Event} (h : s.pending = e :: rest) :
    nextEvent s = (e, { s with pending := rest }) := by
  simp [nextEvent, h]

end Sys2Proof.Machine
end

