-- ==== Sys2Proof/Laws/PerInstr.lean ====
section
/-! SUPPORT. One lemma for each instruction, for statements over all of them. -/

/-- A part of a step carries its step's word and is well-formed as its step is (30_encoding.md R80). -/
def Sys2Proof.Laws.StepWord.Statement (i : Sys2Proof.Instr) : Prop :=
  Sys2Proof.encode i.wholeStep = Sys2Proof.encode i ∧ i.wholeStep.wf = i.wf ∧
    i.wholeStep.wholeStep = i.wholeStep

namespace Sys2Proof.Laws.StepWord

theorem nop : Statement .nop := ⟨rfl, rfl, rfl⟩

theorem start : Statement .start := ⟨rfl, rfl, rfl⟩

theorem clear : Statement .clear := ⟨rfl, rfl, rfl⟩

theorem cmdReserved (wdata : Reg32) : Statement (.cmdReserved wdata) := ⟨rfl, rfl, rfl⟩

theorem wrstatus (wdata : Reg32) : Statement (.wrstatus wdata) := ⟨rfl, rfl, rfl⟩

theorem wrregCfgW (wdata : Reg32) : Statement (.wrregCfgW wdata) := ⟨rfl, rfl, rfl⟩

theorem wrregCfgB (wdata : Reg32) : Statement (.wrregCfgB wdata) := ⟨rfl, rfl, rfl⟩

theorem wrregCfgS (wdata : Reg32) : Statement (.wrregCfgS wdata) := ⟨rfl, rfl, rfl⟩

theorem wrregCfgO (wdata : Reg32) : Statement (.wrregCfgO wdata) := ⟨rfl, rfl, rfl⟩

theorem wrregCfgWidth (wdata : Reg32) : Statement (.wrregCfgWidth wdata) := ⟨rfl, rfl, rfl⟩

theorem wrregCfgHeight (wdata : Reg32) : Statement (.wrregCfgHeight wdata) := ⟨rfl, rfl, rfl⟩

theorem wrregCfgLen (wdata : Reg32) : Statement (.wrregCfgLen wdata) := ⟨rfl, rfl, rfl⟩

theorem regwReserved (offset : Offset) (wdata : Reg32) : Statement (.regwReserved offset wdata) := ⟨rfl, rfl, rfl⟩

theorem rdregCmd : Statement .rdregCmd := ⟨rfl, rfl, rfl⟩

theorem rdregStatus : Statement .rdregStatus := ⟨rfl, rfl, rfl⟩

theorem rdregCfgW : Statement .rdregCfgW := ⟨rfl, rfl, rfl⟩

theorem rdregCfgB : Statement .rdregCfgB := ⟨rfl, rfl, rfl⟩

theorem rdregCfgS : Statement .rdregCfgS := ⟨rfl, rfl, rfl⟩

theorem rdregCfgO : Statement .rdregCfgO := ⟨rfl, rfl, rfl⟩

theorem rdregCfgWidth : Statement .rdregCfgWidth := ⟨rfl, rfl, rfl⟩

theorem rdregCfgHeight : Statement .rdregCfgHeight := ⟨rfl, rfl, rfl⟩

theorem rdregCfgLen : Statement .rdregCfgLen := ⟨rfl, rfl, rfl⟩

theorem regrReserved (offset : Offset) : Statement (.regrReserved offset) := ⟨rfl, rfl, rfl⟩

theorem wrin (addr : BitVec 32) (wdata : Byte) : Statement (.wrin addr wdata) := ⟨rfl, rfl, rfl⟩

theorem rdout (idx : BitVec 32) : Statement (.rdout idx) := ⟨rfl, rfl, rfl⟩

theorem reset : Statement .reset := ⟨rfl, rfl, rfl⟩

theorem check : Statement .check := ⟨rfl, rfl, rfl⟩

theorem cfgchk : Statement .cfgchk := ⟨rfl, rfl, rfl⟩

theorem lenchk : Statement .lenchk := ⟨rfl, rfl, rfl⟩

theorem dimchk : Statement .dimchk := ⟨rfl, rfl, rfl⟩

theorem run : Statement .run := ⟨rfl, rfl, rfl⟩

theorem fetchw : Statement .fetchw := ⟨rfl, rfl, rfl⟩

theorem extract : Statement .extract := ⟨rfl, rfl, rfl⟩

theorem zext : Statement .zext := ⟨rfl, rfl, rfl⟩

theorem bitrev : Statement .bitrev := ⟨rfl, rfl, rfl⟩

theorem store : Statement .store := ⟨rfl, rfl, rfl⟩

theorem advance : Statement .advance := ⟨rfl, rfl, rfl⟩

theorem finish : Statement .finish := ⟨rfl, rfl, rfl⟩

theorem packedwordDefault (pad : BitVec 2) (sample2 sample1 sample0 : BitVec 10) : Statement (.packedwordDefault pad sample2 sample1 sample0) := ⟨rfl, rfl, rfl⟩

theorem normsampleDefault (raw : BitVec 10) : Statement (.normsampleDefault raw) := ⟨rfl, rfl, rfl⟩

end Sys2Proof.Laws.StepWord
end

