-- ==== Sys2Proof/Laws/Run.lean ====
section
/-! SUPPORT. What the sequencer does in a state of a run, which event a step executes, and what the
invariant does not look at. -/

namespace Sys2Proof.Machine

open Sys2Proof.Safety

/-! One step. -/

theorem step_bus {s : State} {w : Encoded} {rest : List Event} (h : s.pending = .bus w :: rest) :
    step s = match decode w with
      | .ok i => exec i { s with pending := rest }
      | .error e => rejected e { s with pending := rest } := by
  unfold step; rw [nextEvent_cons h]; rfl

theorem step_step {s : State} {rest : List Event} (h : s.pending = .step :: rest) :
    step s = match decode (.seq (selOf s)) with
      | .ok i => exec i { s with pending := rest }
      | .error e => rejected e { s with pending := rest } := by
  unfold step; rw [nextEvent_cons h]; rfl

theorem step_nil {s : State} (h : s.pending = []) :
    step s = match decode (.seq (selOf s)) with
      | .ok i => exec i s
      | .error e => rejected e s := by
  unfold step; rw [nextEvent_nil h]; rfl

/-- The decoder gives whole steps, never a part of one. -/
theorem wholeStep_of_decode {e : Encoded} {i : Instr} (h : decode e = .ok i) : i.wholeStep = i := by
  cases e <;>
    simp only [decode, decodeRegw, decodeRegr, decodeSeq, decodeNormSample, decodeCommand,
      decodePackedWord] at h
  all_goals (repeat' split at h)
  all_goals (cases h; try rfl)

/-- One step more at the front of a run, of any machine. -/
theorem core_run_succ (M : Host.Core) (n : Nat) (s t : M.State) (h : M.step s = .next t) :
    M.run (n + 1) s = M.run n t := by
  rw [Host.Core.run, h]

/-- One step more at the front of a run. -/
theorem run_succ (n : Nat) {s t : State} (h : step s = .next t) :
    Host.Core.run core (n + 1) s = Host.Core.run core n t :=
  core_run_succ core n s t h

/-! The `CHECK` step. -/

theorem checkStep_of_error {s : State} {e : ErrCode} (h : checkError s.params s.cfg = some e) :
    checkStep s = raise e s := by
  unfold checkError at h
  unfold checkStep
  split_ifs at h ⊢ <;> cases h <;> rfl

theorem checkStep_of_none {s : State} (h : checkError s.params s.cfg = none) :
    checkStep s = { s with phase := .run } := by
  unfold checkError at h
  unfold checkStep
  split_ifs at h ⊢
  rfl

theorem checkError_ne_none_code (p : Params) (c : Cfg) : checkError p c ≠ some .none := by
  unfold checkError; split_ifs <;> simp

/-- The eight conditions of 43_sequencer.md R123, as the model computes them. -/
theorem cfgFails_eq_true_iff (p : Params) (c : Cfg) : cfgFails p c = true ↔ BreaksACondition p c := by
  unfold cfgFails BreaksACondition
  rw [decide_eq_true_iff]

/-! The `RUN` step. -/

/-- A counter that has room counts. -/
theorem toNat_add_one {w : Nat} (x : BitVec w) (h : x.toNat + 1 < 2 ^ w) (hw : w ≠ 0) :
    (x + 1).toNat = x.toNat + 1 := by
  rw [BitVec.toNat_add,
    show (1 : BitVec w).toNat = 1 by simp [Nat.mod_eq_of_lt (Nat.one_lt_two_pow hw)]]
  exact Nat.mod_eq_of_lt h

/-- `WIDX` and `KIDX` are the word and the lane of sample `OIDX`. -/
theorem running_lane {s : State} (h : Running s) :
    s.oidx.toNat / s.cfg.s.toNat = s.widx.toNat ∧ s.oidx.toNat % s.cfg.s.toNat = s.kidx.toNat := by
  have := h.kidx
  rw [h.position, Nat.mul_comm]
  constructor
  · rw [Nat.mul_add_div (by omega), Nat.div_eq_of_lt this, Nat.add_zero]
  · rw [Nat.mul_add_mod, Nat.mod_eq_of_lt this]

/-- The word `FETCHW` reads lies inside the buffer. -/
theorem running_word_inside {s : State} (h : Running s) :
    s.widx.toNat * s.cfg.wb + s.cfg.wb ≤ s.cfg.len.toNat := by
  have hlen := (legal_counts h.legal).2.2.2.2.2.1
  calc _ = (s.widx.toNat + 1) * s.cfg.wb := by ring
    _ ≤ s.cfg.nw * s.cfg.wb := Nat.mul_le_mul_right _ h.widx
    _ = _ := hlen

/-- After `FETCHW`, `WORD` is the word of the sample, read now or latched before. -/
theorem fetchStage_of_running {s : State} (h : Running s) :
    fetchStage s = .next { s with word := wordAt s.cfg.wb (inByte s) s.widx.toNat } := by
  have hin := (legal_counts h.legal).2.2.2.2.2.2.2.1
  have hr := running_word_inside h
  unfold fetchStage
  split_ifs with h1 h2
  · rfl
  · omega
  · have : 0 < s.kidx.toNat := Nat.pos_of_ne_zero fun h0 => h1 (BitVec.eq_of_toNat_eq h0)
    rw [← h.word this]

/-- The state of a run once sample `OIDX` is stored and before `ADVANCE`. -/
def sampleStored (s : State) : State :=
  setOut s.oidx.toNat (normAt s.cfg (inByte s) s.oidx.toNat)
    { s with
      word := wordAt s.cfg.wb (inByte s) s.widx.toNat
      path :=
        { raw := rawAt s.cfg (inByte s) s.oidx.toNat
          x := zeroExtend s.cfg.b.toNat s.cfg.o.toNat (rawAt s.cfg (inByte s) s.oidx.toNat)
          y := normAt s.cfg (inByte s) s.oidx.toNat } }

/-- The body of a `RUN` step in a state of a run. -/
theorem runStep_of_running {s : State} (h : Running s) :
    runStep s = .next (finishStage (advanceStage (sampleStored s))) := by
  have hout := (legal_counts h.legal).2.2.2.2.2.2.2.2
  have hp := running_lane h
  have ho := h.oidx
  rw [runStep, fetchStage_of_running h, andThen_next,
    storeStage_of_lt (by simpa using by omega), andThen_next]
  simp [sampleStored, normAt, rawAt, hp.1, hp.2, normalizeSample, extractStage, zextStage,
    bitrevStage, setOut]

theorem inByte_sampleStored (s : State) : inByte (sampleStored s) = inByte s := inByte_congr rfl rfl

theorem outCell_sampleStored (s : State) (k : Nat) :
    outCell (sampleStored s) k =
      if k = s.oidx.toNat then normAt s.cfg (inByte s) s.oidx.toNat else outCell s k := by
  rw [sampleStored, outCell_setOut]; rfl

/-- No counter wraps in a state of a run. -/
theorem advanceStage_of_running {s : State} (hp : s.params.wf = true) (h : Running s) :
    (advanceStage s).oidx.toNat = s.oidx.toNat + 1 ∧
    (s.kidx.toNat + 1 = s.cfg.s.toNat →
      (advanceStage s).kidx.toNat = 0 ∧ (advanceStage s).widx.toNat = s.widx.toNat + 1) ∧
    (s.kidx.toNat + 1 ≠ s.cfg.s.toNat →
      (advanceStage s).kidx.toNat = s.kidx.toNat + 1 ∧ (advanceStage s).widx = s.widx) := by
  obtain ⟨-, -, -, -, -, -, -, -, hout⟩ := legal_counts h.legal
  have hsize : s.params.outSize ≤ 2 ^ 32 := by simp [Params.wf] at hp; omega
  have h1 := h.oidx
  have h2 := h.kidx
  have h3 := h.widx
  have hS := s.cfg.s.isLt
  have hNW : s.cfg.nw ≤ s.cfg.len.toNat := Nat.div_le_self _ _
  have hL := s.cfg.len.isLt
  have e1 := toNat_add_one s.oidx (by omega) (by omega)
  have e2 := toNat_add_one s.kidx (by omega) (by omega)
  have e3 := toNat_add_one s.widx (by omega) (by omega)
  refine ⟨e1, fun hk => ?_, fun hk => ?_⟩
  · rw [advanceStage_kidx, advanceStage_widx, if_pos hk, if_pos hk]; exact ⟨rfl, e3⟩
  · rw [advanceStage_kidx, advanceStage_widx, if_neg hk, if_neg hk]; exact ⟨e2, rfl⟩

/-! Each operation of the decoder, where it is selected. -/

theorem exec_check_of_selected {s : State} (h : InCheck s) : exec .check s = .next (checkStep s) :=
  congrArg Host.Outcome.next (inCheck_of_selected h)

theorem exec_cfgchk_of_selected {s : State} (h : InCheck s) : exec .cfgchk s = .next (cfgchkStage s) :=
  congrArg Host.Outcome.next (inCheck_of_selected h)

theorem exec_lenchk_of_selected {s : State} (h : InCheck s) : exec .lenchk s = .next (lenchkStage s) :=
  congrArg Host.Outcome.next (inCheck_of_selected h)

theorem exec_dimchk_of_selected {s : State} (h : InCheck s) : exec .dimchk s = .next (dimchkStage s) :=
  congrArg Host.Outcome.next (inCheck_of_selected h)

theorem exec_run_of_selected {s : State} (h : InRun s) (hc : cfgFails s.params s.cfg = false) :
    exec .run s = runStep s :=
  inRun_of_selected h hc

theorem exec_fetchw_of_selected {s : State} (h : InRun s) (hc : cfgFails s.params s.cfg = false) :
    exec .fetchw s = fetchStage s :=
  inRun_of_selected h hc

theorem exec_store_of_selected {s : State} (h : InRun s) (hc : cfgFails s.params s.cfg = false) :
    exec .store s = storeStage s :=
  inRun_of_selected h hc

theorem exec_extract_of_selected {s : State} (h : InRun s) (hc : cfgFails s.params s.cfg = false) :
    exec .extract s = .next (extractStage s) :=
  inRun_of_selected (f := fun s => .next (extractStage s)) h hc

theorem exec_zext_of_selected {s : State} (h : InRun s) (hc : cfgFails s.params s.cfg = false) :
    exec .zext s = .next (zextStage s) :=
  inRun_of_selected (f := fun s => .next (zextStage s)) h hc

theorem exec_bitrev_of_selected {s : State} (h : InRun s) (hc : cfgFails s.params s.cfg = false) :
    exec .bitrev s = .next (bitrevStage s) :=
  inRun_of_selected (f := fun s => .next (bitrevStage s)) h hc

theorem exec_advance_of_selected {s : State} (h : InRun s) (hc : cfgFails s.params s.cfg = false) :
    exec .advance s = .next (advanceStage s) :=
  inRun_of_selected (f := fun s => .next (advanceStage s)) h hc

theorem exec_finish_of_selected {s : State} (h : InRun s) (hc : cfgFails s.params s.cfg = false) :
    exec .finish s = .next (finishStage s) :=
  inRun_of_selected (f := fun s => .next (finishStage s)) h hc

/-! The invariant. -/

/-- The memories of `State.reset` have the canonical form. -/
theorem reset_memory_wf :
    Memory.wf State.reset.inMem = true ∧ Memory.wf State.reset.outMem = true := ⟨rfl, rfl⟩

/-- The invariant does not look at the events to come, the last answer or the wires. -/
theorem Inv_congr {s t : State} (h : Inv s)
    (ht : t = { s with draws := t.draws, path := t.path, pending := t.pending, response := t.response })
    (hd : s.draws ≤ t.draws) : Inv t := by
  have hi : inByte t = inByte s := inByte_congr (by rw [ht]) (by rw [ht])
  have ho : outCell t = outCell s := outCell_congr (by rw [ht]) (by rw [ht]) (by rw [ht])
  have h1 : t.params = s.params := by rw [ht]
  have h2 : t.cfg = s.cfg := by rw [ht]
  have h3 : t.state = s.state := by rw [ht]
  have h4 : t.err = s.err := by rw [ht]
  have h5 : t.phase = s.phase := by rw [ht]
  have h6 : t.widx = s.widx := by rw [ht]
  have h7 : t.kidx = s.kidx := by rw [ht]
  have h8 : t.oidx = s.oidx := by rw [ht]
  have h9 : t.word = s.word := by rw [ht]
  have h10 : t.inMem = s.inMem := by rw [ht]
  have h11 : t.outMem = s.outMem := by rw [ht]
  have h12 : t.epoch = s.epoch := by rw [ht]
  obtain ⟨⟨f1, f2, f3, f4, f5, f6, f7, f8⟩, he, hc, hr, hd'⟩ := h
  refine ⟨⟨by rwa [h1], by rwa [h9, h1], by rwa [h10], by rwa [h10, h1], by rwa [h11], by rwa [h11, h1],
    by rwa [ho, h1], by omega⟩, by rwa [h4, h3], by rwa [h3, h5, h6, h7, h8], ?_, ?_⟩
  · rw [h3, h5]
    intro a b
    obtain ⟨l, p, o, k, w, wd, fl⟩ := hr a b
    exact ⟨by unfold Legal; rw [h1, h2]; exact l, by rwa [h2, h6, h7, h8], by rwa [h2, h8],
      by rwa [h2, h7], by rwa [h2, h6], by rwa [h2, h6, h7, h9, hi],
      by unfold Filled; rw [h2, h8, hi, ho]; exact fl⟩
  · rw [h3]
    intro a
    unfold Legal Filled
    rw [h1, h2, hi, ho]
    exact hd' a

end Sys2Proof.Machine
end

