-- ==== Sys2Proof/Tests/Slice0.lean ====
section
/-! SUPPORT. The model's own tests: ill-formed terms, words written out from 30_encoding.md, one-step
vectors of 95_test_vectors.md (named by their ids), and a state that meets the hypotheses of each
statement. -/

namespace Sys2Proof.Tests

open Sys2Proof.Machine Sys2Proof.Safety

/-! ## Small states -/

/-- An instance as 95_test_vectors.md part 3 assumes it. -/
def small : Params := { wMax := 64, oMax := 32, inSize := 16, outSize := 16 }

/-- The configuration of S4a: the default widths, one row of three samples, one word. -/
def cfgS4a : Cfg := { w := 32, b := 10, s := 3, o := 16, width := 3, height := 1, len := 4 }

/-- `IDLE` with the buffer `14 30 00 00` of S4a. -/
def idleS4a : State :=
  { State.powerUp small 0 with
    cfg := cfgS4a, word := 0, inMem := [(0, 0x14), (1, 0x30), (2, 0x00), (3, 0x00)] }

/-- `BUSY`/`CHECK`, just after `START`. -/
def checkS4a : State := { idleS4a with state := .busy }

/-- `BUSY`/`RUN` before the first sample. -/
def runFirst : State := { checkS4a with phase := .run }

/-- `BUSY`/`RUN` before the second sample. -/
def runSecond : State :=
  { runFirst with kidx := 1, oidx := 1, word := 0x00003014, outMem := [(0, 0x2800)] }

/-- `BUSY`/`RUN` before the last sample. -/
def runLast : State :=
  { runFirst with kidx := 2, oidx := 2, word := 0x00003014, outMem := [(0, 0x2800), (1, 0x3000)] }

/-- `DONE` with the grid of S4a. -/
def doneS4a : State :=
  { runFirst with
    state := .done, widx := 1, oidx := 3, word := 0x00003014
    outMem := [(0, 0x2800), (1, 0x3000), (2, 0x0000)] }

/-- `ERROR` with `ERR = DimensionMismatch`. -/
def errorTwo : State := { idleS4a with state := .error, err := .dimensionMismatch }

/-- `BUSY`/`CHECK` with a changed configuration. -/
def checkWith (f : Cfg → Cfg) : State := { checkS4a with cfg := f cfgS4a }

/-- What is seen of the state after one operation; nothing if it stops. -/
def seen {α : Type} (r : Result) (f : State → α) : Option α :=
  match r with
  | .next s => some (f s)
  | .fault _ => none
  | .refused _ => none

/-- `STATUS` after one operation. -/
def statusAfter (i : Instr) (s : State) : Option Reg32 := seen (exec i s) statusWord

/-- The answer to one read. -/
def answerOf (i : Instr) (s : State) : Option (Option Response) := seen (exec i s) State.response

/-! ## WellFormed: each check refuses an ill-formed term -/

theorem test_wf_refuses_reserved_command_two : (Instr.cmdReserved 2).wf = false := by decide
theorem test_wf_refuses_reserved_write_at_a_register : (Instr.regwReserved 0x20 0).wf = false := by decide
theorem test_wf_refuses_reserved_write_off_the_grid : (Instr.regwReserved 0x25 0).wf = false := by decide
theorem test_wf_refuses_reserved_read_at_a_register : (Instr.regrReserved 0x04).wf = false := by decide
theorem test_wf_refuses_reserved_read_off_the_grid : (Instr.regrReserved 0xFE).wf = false := by decide
theorem test_wf_admits_the_ends :
    (Instr.cmdReserved 3).wf = true ∧ (Instr.regwReserved 0x24 0).wf = true ∧
    (Instr.regrReserved 0xFC).wf = true := by decide

/-! ## Decode: words written out from R77 to R80, R72, R75 -/

theorem test_decode_commands :
    decodeTableWord 40 0x0000000000 = some .nop ∧ decodeTableWord 40 0x0000000001 = some .start ∧
    decodeTableWord 40 0x0000000002 = some .clear ∧
    decodeTableWord 40 0x0000000003 = some (.cmdReserved 3) ∧
    decodeTableWord 40 0x00FFFFFFFF = some (.cmdReserved 0xFFFFFFFF) := by decide

theorem test_decode_register_writes :
    decodeTableWord 40 0x040000000F = some (.wrstatus 0xF) ∧
    decodeTableWord 40 0x0800000020 = some (.wrregCfgW 32) ∧
    decodeTableWord 40 0x0C0000000A = some (.wrregCfgB 10) ∧
    decodeTableWord 40 0x1000000003 = some (.wrregCfgS 3) ∧
    decodeTableWord 40 0x1400000010 = some (.wrregCfgO 16) ∧
    decodeTableWord 40 0x1800000003 = some (.wrregCfgWidth 3) ∧
    decodeTableWord 40 0x1C00000001 = some (.wrregCfgHeight 1) ∧
    decodeTableWord 40 0x2000000004 = some (.wrregCfgLen 4) ∧
    decodeTableWord 40 0x2480000000 = some (.regwReserved 0x24 0x80000000) ∧
    decodeTableWord 40 0x2500000000 = none := by decide

theorem test_decode_register_reads :
    decodeTableWord 8 0x00 = some .rdregCmd ∧ decodeTableWord 8 0x04 = some .rdregStatus ∧
    decodeTableWord 8 0x08 = some .rdregCfgW ∧ decodeTableWord 8 0x0C = some .rdregCfgB ∧
    decodeTableWord 8 0x10 = some .rdregCfgS ∧ decodeTableWord 8 0x14 = some .rdregCfgO ∧
    decodeTableWord 8 0x18 = some .rdregCfgWidth ∧ decodeTableWord 8 0x1C = some .rdregCfgHeight ∧
    decodeTableWord 8 0x20 = some .rdregCfgLen ∧ decodeTableWord 8 0x24 = some (.regrReserved 0x24) ∧
    decodeTableWord 8 0xFC = some (.regrReserved 0xFC) ∧ decodeTableWord 8 0x21 = none := by decide

theorem test_decode_memory_and_reset :
    decode (.inw 0x00000001 0x30) = .ok (.wrin 1 0x30) ∧ decode (.outr 0x00000002) = .ok (.rdout 2) ∧
    decodeTableWord 0 0 = some .reset := by decide

/-- A part of a step carries its step's `sel` (R80): its word gives the step. -/
theorem test_decode_steps :
    decodeTableWord 8 0b010 = some .check ∧ decodeTableWord 8 0b011 = some .run ∧
    decode (.seq 0b000) = .error .noStep ∧ decode (.seq 0b001) = .error .noStep ∧
    decode (.seq 0b100) = .error .noStep ∧ decode (.seq 0b111) = .error .noStep ∧
    [Instr.cfgchk, .lenchk, .dimchk].map encode = [.seq 0b010, .seq 0b010, .seq 0b010] ∧
    [Instr.fetchw, .extract, .zext, .bitrev, .store, .advance, .finish].map encode =
      List.replicate 7 (.seq 0b011) := by decide

/-- V9 as a word, V15 for the top bit of sample 2, V12 for the pad bits; `0x2800` is sample 20. -/
theorem test_decode_data :
    decodeTableWord 32 0x3FF00801 = some (.packedwordDefault 0 1023 2 1) ∧
    decodeTableWord 32 0x20000000 = some (.packedwordDefault 0 512 0 0) ∧
    decodeTableWord 32 0xC0000000 = some (.packedwordDefault 3 0 0 0) ∧
    decodeTableWord 16 0x2800 = some (.normsampleDefault 20) ∧ decodeTableWord 16 0x2801 = none := by
  decide

/-! ## The pure functions (95_test_vectors.md part 1 and 2.1, 2.2, 2.8) -/

/-- V6: 24-bit words are assembled little-endian, the second word from its own bytes. -/
theorem test_wordAt_24 :
    wordAt 3 (fun a => [0xBC, 0xFA, 0x12, 0x01, 0x02, 0x03].getD a 0) 0 = 0x12FABC ∧
    wordAt 3 (fun a => [0xBC, 0xFA, 0x12, 0x01, 0x02, 0x03].getD a 0) 1 = 0x030201 := by decide

/-- V17 and V20: lanes of 12 bits; a lane that is the whole word. -/
theorem test_extract_lanes :
    extractSample 12 0x12FABC 0 = 2748 ∧ extractSample 12 0x12FABC 1 = 303 ∧
    extractSample 8 0xA5 0 = 0xA5 := by decide

/-- S1 and section 2.2. -/
theorem test_normalize_values :
    normalizeSample 10 16 1 = 0x8000 ∧ normalizeSample 10 16 0x3FF = 0xFFC0 ∧
    normalizeSample 10 16 511 = 0xFF80 ∧ normalizeSample 10 16 341 = 0xAA80 ∧
    normalizeSample 12 16 2748 = 0x3D50 ∧ normalizeSample 8 8 0x80 = 0x01 ∧
    normalizeSample 1 1 1 = 1 := by decide

/-- S2: the involution's instances. -/
theorem test_bitRev_values :
    bitRev 16 0x1234 = 0x2C48 ∧ bitRev 16 0x2C48 = 0x1234 ∧ bitRev 16 0xA5C3 = 0xC3A5 := by decide

/-- V101: a whole frame of another format. -/
theorem test_frame_V101 :
    decodeFrame small { w := 16, b := 4, s := 4, o := 8, width := 4, height := 2, len := 4 }
        (fun a => [0x21, 0x43, 0xEF, 0xCD].getD a 0) =
      .ok [[0x80, 0x40, 0xC0, 0x20], [0xF0, 0x70, 0xB0, 0x30]] := by rfl

/-! ## One operation each -/

/-- V71, V72. -/
theorem test_start :
    seen (exec .start idleS4a) (fun t => (t.state, t.err, t.oidx)) = some (.busy, .none, 0) ∧
    seen (exec .start runLast) (fun t => (t.state, t.oidx)) = some (.busy, 2) := by decide

/-- V70, V73, V75, V77. -/
theorem test_clear :
    statusAfter .clear doneS4a = some 0x0 ∧ statusAfter .clear errorTwo = some 0x0 ∧
    statusAfter .clear idleS4a = some 0x0 ∧ statusAfter .clear runFirst = some 0x1 := by decide

/-- V69: a reserved command; `NOP` in `BUSY`. -/
theorem test_nop_and_reserved :
    statusAfter (.cmdReserved 3) idleS4a = some 0x0 ∧ statusAfter .nop checkS4a = some 0x1 := by decide

/-- V64, V65. -/
theorem test_cfg_width_write :
    seen (exec (.wrregCfgWidth 7) idleS4a) State.cfg = some { cfgS4a with width := 7 } ∧
    seen (exec (.wrregCfgWidth 5) doneS4a) State.cfg = some cfgS4a := by decide

/-- Each write goes to its own register. -/
theorem test_cfg_writes :
    seen (exec (.wrregCfgW 64) idleS4a) State.cfg = some { cfgS4a with w := 64 } ∧
    seen (exec (.wrregCfgB 11) idleS4a) State.cfg = some { cfgS4a with b := 11 } ∧
    seen (exec (.wrregCfgS 4) idleS4a) State.cfg = some { cfgS4a with s := 4 } ∧
    seen (exec (.wrregCfgO 17) idleS4a) State.cfg = some { cfgS4a with o := 17 } ∧
    seen (exec (.wrregCfgHeight 9) idleS4a) State.cfg = some { cfgS4a with height := 9 } ∧
    seen (exec (.wrregCfgLen 0xFFFFFFFF) idleS4a) State.cfg = some { cfgS4a with len := 0xFFFFFFFF } := by
  decide

/-- V68; a write at a reserved offset. -/
theorem test_ignored_writes :
    statusAfter (.wrstatus 0xF) idleS4a = some 0x0 ∧
    seen (exec (.regwReserved 0x24 1) idleS4a) State.cfg = some cfgS4a := by decide

/-- V61, V62, V63 on the registers of S4a. -/
theorem test_register_reads :
    [Instr.rdregCmd, .rdregCfgW, .rdregCfgB, .rdregCfgS, .rdregCfgO, .rdregCfgWidth, .rdregCfgHeight,
        .rdregCfgLen, .regrReserved 0x24].map (fun i => answerOf i doneS4a) =
      [0, 32, 10, 3, 16, 3, 1, 4, 0].map fun v => some (some (.register v)) := by decide

/-- V60, V74, V76 and R142: all six values of `STATUS`. -/
theorem test_status_reads :
    answerOf .rdregStatus idleS4a = some (some (.register 0x0)) ∧
    answerOf .rdregStatus runFirst = some (some (.register 0x1)) ∧
    answerOf .rdregStatus doneS4a = some (some (.register 0x2)) ∧
    answerOf .rdregStatus { errorTwo with err := .malformedInput } = some (some (.register 0x7)) ∧
    answerOf .rdregStatus errorTwo = some (some (.register 0xB)) ∧
    answerOf .rdregStatus { errorTwo with err := .badConfig } = some (some (.register 0xF)) := by decide

/-- V66, V67, and the last byte of `IN`; a write keeps the list's order. -/
theorem test_wrin :
    seen (exec (.wrin 0 0xFF) checkS4a) State.inMem = some idleS4a.inMem ∧
    seen (exec (.wrin 16 0xFF) idleS4a) State.inMem = some idleS4a.inMem ∧
    seen (exec (.wrin 15 0xFF) idleS4a) State.inMem = some (idleS4a.inMem ++ [(15, 0xFF)]) ∧
    seen (exec (.wrin 1 0x31) idleS4a) State.inMem =
      some [(0, 0x14), (1, 0x31), (2, 0x00), (3, 0x00)] := by decide

/-- V78. -/
theorem test_rdout :
    answerOf (.rdout 0) doneS4a = some (some (.cell 0x2800)) ∧
    answerOf (.rdout 2) doneS4a = some (some (.cell 0x0000)) := by decide

/-- V78 to V80: where no cell is readable, a draw is taken and the block stays as it is. -/
theorem test_rdout_any :
    seen (exec (.rdout 3) doneS4a) (fun t => (t.draws, t.state)) = some (2, .done) ∧
    seen (exec (.rdout 0) errorTwo) (fun t => (t.draws, t.state)) = some (2, .error) := by decide

/-- V81, V82. -/
theorem test_reset :
    seen (exec .reset runLast) (fun t => (statusWord t, t.cfg.len, t.inMem)) = some (0x0, 0, []) ∧
    seen (exec .reset { errorTwo with cfg := { cfgS4a with s := 4 } }) (fun t => (statusWord t, t.cfg.s)) =
      some (0x0, 3) := by decide

/-- V40, V43, V46, V54. -/
theorem test_check :
    statusAfter .check (checkWith fun c => { c with width := 2, height := 2 }) = some 0xB ∧
    statusAfter .check (checkWith fun c => { c with len := 5 }) = some 0x7 ∧
    statusAfter .check (checkWith fun c => { c with s := 4, width := 4 }) = some 0xF ∧
    seen (exec .check checkS4a) (fun t => (statusWord t, t.phase)) = some (0x1, .run) := by decide

/-- V44, V45, V53, V59: the order of the checks, the empty buffer, a product of `2^32`. -/
theorem test_check_priority :
    statusAfter .check (checkWith fun c => { c with len := 0 }) = some 0xB ∧
    statusAfter .check (checkWith fun c => { c with len := 5, width := 4, height := 4 }) = some 0x7 ∧
    statusAfter .check (checkWith fun c => { c with s := 4, len := 5, width := 10, height := 10 }) = some 0xF ∧
    statusAfter .check (checkWith fun c => { c with width := 65536, height := 65536 }) = some 0xF := by
  decide

/-- V47 to V52, V57, V58: one configuration for each further condition. -/
theorem test_cfgchk :
    statusAfter .cfgchk (checkWith fun c => { c with o := 8 }) = some 0xF ∧
    statusAfter .cfgchk (checkWith fun c => { c with w := 12, b := 4 }) = some 0xF ∧
    statusAfter .cfgchk (checkWith fun c => { c with width := 0 }) = some 0xF ∧
    statusAfter .cfgchk (checkWith fun c => { c with w := 0 }) = some 0xF ∧
    statusAfter .cfgchk (checkWith fun c => { c with b := 0 }) = some 0xF ∧
    statusAfter .cfgchk (checkWith fun c => { c with s := 0 }) = some 0xF ∧
    statusAfter .cfgchk (checkWith fun c => { c with o := 33 }) = some 0xF ∧
    statusAfter .cfgchk (checkWith fun c => { c with w := 128 }) = some 0xF := by decide

/-- A count that does not fit `OUT`, a buffer that does not fit `IN`, and one that just does. -/
theorem test_cfgchk_capacity :
    statusAfter .cfgchk (checkWith fun c => { c with width := 17 }) = some 0xF ∧
    statusAfter .cfgchk (checkWith fun c => { c with len := 17 }) = some 0xF ∧
    statusAfter .cfgchk (checkWith fun c => { c with width := 16, len := 16 }) = some 0x1 := by decide

/-- V43, V44; a length check that is not reached. -/
theorem test_lenchk :
    statusAfter .lenchk (checkWith fun c => { c with len := 5 }) = some 0x7 ∧
    statusAfter .lenchk (checkWith fun c => { c with len := 0 }) = some 0x1 ∧
    statusAfter .lenchk (checkWith fun c => { c with len := 5, s := 4 }) = some 0x1 := by decide

/-- V40, V41; a dimension check that is not reached. -/
theorem test_dimchk :
    statusAfter .dimchk (checkWith fun c => { c with width := 2, height := 2 }) = some 0xB ∧
    statusAfter .dimchk (checkWith fun c => { c with width := 2 }) = some 0xB ∧
    statusAfter .dimchk checkS4a = some 0x1 ∧
    statusAfter .dimchk (checkWith fun c => { c with width := 2, len := 5 }) = some 0x1 := by decide

/-- V1. -/
theorem test_fetchw :
    seen (exec .fetchw runFirst) State.word = some 0x00003014 ∧
    seen (exec .fetchw { runSecond with word := 5 }) State.word = some 5 := by decide

/-- V8, lane 1. -/
theorem test_extract : seen (exec .extract runSecond) (fun t => t.path.raw) = some 12 := by decide

/-- R100's example, and bits at `B` and above dropped. -/
theorem test_zext :
    seen (exec .zext { runSecond with path := { raw := 0x3FF, x := 0, y := 0 } }) (fun t => t.path.x) =
      some 0x03FF ∧
    seen (exec .zext { runSecond with path := { raw := 0x7FF, x := 0, y := 0 } }) (fun t => t.path.x) =
      some 0x03FF := by decide

/-- R101's examples. -/
theorem test_bitrev :
    seen (exec .bitrev { runSecond with path := { raw := 0, x := 0x0001, y := 0 } }) (fun t => t.path.y) =
      some 0x8000 ∧
    seen (exec .bitrev { runSecond with path := { raw := 0, x := 0x03FF, y := 0 } }) (fun t => t.path.y) =
      some 0xFFC0 := by decide

/-- The `STORE` of the second sample. -/
theorem test_store :
    seen (exec .store { runSecond with path := { raw := 12, x := 12, y := 0x3000 } }) State.outMem =
      some [(0, 0x2800), (1, 0x3000)] := by decide

/-- The counters of section 2.5: inside a word, and into the next. -/
theorem test_advance :
    seen (exec .advance runSecond) (fun t => (t.widx, t.kidx, t.oidx)) = some (0, 2, 2) ∧
    seen (exec .advance runLast) (fun t => (t.widx, t.kidx, t.oidx)) = some (1, 0, 3) := by decide

/-- `FINISH` when `OIDX` is `N`, and not before. -/
theorem test_finish :
    statusAfter .finish { runLast with oidx := 3 } = some 0x2 ∧ statusAfter .finish runLast = some 0x1 := by
  decide

/-- Rows 10 and 12 of P1. -/
theorem test_run :
    seen (exec .run runFirst) (fun t => (t.word, t.kidx, t.outMem)) = some (0x00003014, 1, [(0, 0x2800)]) ∧
    seen (exec .run runLast) (fun t => (t.state, t.oidx, t.outMem)) =
      some (.done, 3, [(0, 0x2800), (1, 0x3000), (2, 0x0000)]) := by decide

/-- The data formats stop by name. -/
theorem test_data_formats (s : State) :
    exec (.packedwordDefault 0 0 12 20) s = .refused (.dataFormat "PACKEDWORD.default") ∧
    exec (.normsampleDefault 20) s = .refused (.dataFormat "NORMSAMPLE.default") := ⟨rfl, rfl⟩

/-- `withFetchWord` makes the very next step run the word: `WR CFG_WIDTH, 3`, a `CHECK` and a `RUN`. -/
theorem test_withFetchWord :
    seen (step (State.reset.withFetchWord 40 0x1800000003)) (fun t => t.cfg.width) = some 3 ∧
    seen (step (State.reset.withFetchWord 8 0b010)) statusWord = some 0xB ∧
    seen (step (State.reset.withFetchWord 8 0b011)) (fun t => t.oidx) = some 1 := by decide

/-- The encodings of P2's pseudo-operations (95_test_vectors.md part 3). -/
theorem test_host_notation :
    hostConfig 32 10 3 16 3 2 =
      [.bus (.regw 0x08 0x20), .bus (.regw 0x0C 0x0A), .bus (.regw 0x10 3), .bus (.regw 0x14 0x10),
        .bus (.regw 0x18 3), .bus (.regw 0x1C 2)] ∧
    hostLoad [0x14, 0x30] = [.bus (.inw 0 0x14), .bus (.inw 1 0x30), .bus (.regw 0x20 2)] ∧
    hostDecode 1 = [.bus (.regw 0x00 1), .step, .bus (.regr 0x04)] ∧
    hostReadGrid 2 = [.bus (.outr 0), .bus (.outr 1)] := by decide

/-! ## States that meet the hypotheses of the statements -/

/-- `Formed` from what can be read off the lists. -/
theorem formed_of (s : State) (hp : s.params = small) (hw : s.word < 2 ^ 64)
    (hi : Memory.wf s.inMem = true ∧ Memory.below 16 s.inMem = true)
    (ho : Memory.wf s.outMem = true ∧ Memory.below 16 s.outMem = true)
    (hc : ∀ e ∈ s.outMem, e.2 < 2 ^ 32) (hd : s.epoch < s.draws) : Formed s := by
  refine ⟨by rw [hp]; rfl, by rw [hp]; exact hw, hi.1, by rw [hp]; exact hi.2, ho.1, by rw [hp]; exact ho.2,
    fun i => ?_, hd⟩
  have key : ∀ (m : List (Nat × Nat)) (v : Nat), (∀ e ∈ m, e.2 < 2 ^ 32) →
      Memory.get m i = some v → v < 2 ^ 32 := by
    intro m v hm hg
    induction m with
    | nil => cases hg
    | cons e m ih =>
      rw [Memory.get] at hg
      split_ifs at hg
      · cases hg; exact hm e (by simp)
      · exact ih (fun x hx => hm x (by simp [hx])) hg
  unfold outCell
  split
  next v hv => rw [hp]; exact key _ _ hc hv
  next => rw [hp]; exact (Config.freeOutCell _ _ _).isLt

theorem witness_inv_idle : Inv idleS4a :=
  ⟨formed_of _ rfl (by decide) (by decide) (by decide) (by decide) (by decide), by decide,
    fun h => (by cases h), fun h => (by cases h), fun h => (by cases h)⟩

theorem witness_inv_check : Inv checkS4a :=
  ⟨formed_of _ rfl (by decide) (by decide) (by decide) (by decide) (by decide), by decide,
    fun _ _ => by decide, fun _ h => (by cases h), fun h => (by cases h)⟩

theorem witness_running_first : Running runFirst :=
  ⟨by unfold Legal; decide, by decide, by decide, by decide, by decide, fun h => absurd h (by decide),
    fun _ h => absurd h (Nat.not_lt_zero _)⟩

theorem witness_running_second : Running runSecond :=
  ⟨by unfold Legal; decide, by decide, by decide, by decide, by decide, fun _ => by decide, by unfold Filled; decide⟩

theorem witness_running_last : Running runLast :=
  ⟨by unfold Legal; decide, by decide, by decide, by decide, by decide, fun _ => by decide, by unfold Filled; decide⟩

theorem witness_inv_run : Inv runLast :=
  ⟨formed_of _ rfl (by decide) (by decide) (by decide) (by decide) (by decide), by decide,
    fun _ h => (by cases h), fun _ _ => witness_running_last, fun h => (by cases h)⟩

theorem witness_inv_done : Inv doneS4a :=
  ⟨formed_of _ rfl (by decide) (by decide) (by decide) (by decide) (by decide), by decide,
    fun h => (by cases h), fun h => (by cases h), fun _ => ⟨by unfold Legal; decide, by unfold Filled; decide⟩⟩

theorem witness_inv_error : Inv errorTwo :=
  ⟨formed_of _ rfl (by decide) (by decide) (by decide) (by decide) (by decide), by decide,
    fun h => (by cases h), fun h => (by cases h), fun h => (by cases h)⟩

/-! Encoding. -/

theorem witness_EncodeOfDecodeIsTheWord :
    decode (.regw 0xFC 0) = .ok (.regwReserved 0xFC 0) ∧ decode (.regr 0x20) = .ok .rdregCfgLen ∧
    decode (.seq 0b011) = .ok .run ∧ decode (.packedWord 0x3FF00801) = .ok (.packedwordDefault 0 1023 2 1) ∧
    decode (.normSample 0x2800) = .ok (.normsampleDefault 20) := by decide

theorem witness_RegisterWordsFollowTheFirstMatchingRow :
    (0x00 : Offset).toNat % 4 = 0 ∧ (0x20 : Offset).toNat % 4 = 0 ∧ (0xFC : Offset).toNat % 4 = 0 := by decide

theorem witness_ReservedOffsetsAreInert :
    (0x24 ≤ (0x24 : Offset).toNat ∧ (0x24 : Offset).toNat % 4 = 0) ∧
    (0x24 ≤ (0xFC : Offset).toNat ∧ (0xFC : Offset).toNat % 4 = 0) ∧
    (0x01 : Offset).toNat % 4 ≠ 0 ∧ (0x23 : Offset).toNat % 4 ≠ 0 ∧ (0xFF : Offset).toNat % 4 ≠ 0 ∧
    State.pending { idleS4a with pending := [.bus (.regw 0x24 1), .step] } = .bus (.regw 0x24 1) :: [.step] ∧
    State.pending { idleS4a with pending := [.bus (.regr 0xFF)] } = .bus (.regr 0xFF) :: [] := by decide

theorem witness_DefaultWordLiesInMemoryAsTabled :
    decode (.packedWord 0xC0003014) = .ok (.packedwordDefault 3 0 12 20) ∧
    encode (.packedwordDefault 3 0 12 20) =
      .packedWord (BitVec.ofNat 32 (wordAt 4 (fun a => [0x14, 0x30, 0x00, 0xC0].getD a 0) 0)) := by decide

/-! Steps, commands and registers. -/

theorem witness_StepRunsTheDecodedWord :
    decode (.regw 0x18 3) = .ok (.wrregCfgWidth 3) ∧
    State.pending { idleS4a with pending := [.bus (.regw 0x18 3)] } = .bus (.regw 0x18 3) :: [] ∧
    decode (.seq (selOf checkS4a)) = .ok .check ∧ decode (.seq (selOf runLast)) = .ok .run ∧
    State.pending { runLast with pending := [.step] } = .step :: [] ∧ runLast.pending = [] := by decide

theorem witness_DecoderWaitsOutsideBusy :
    idleS4a.state ≠ .busy ∧ doneS4a.state ≠ .busy ∧ errorTwo.state ≠ .busy ∧ doneS4a.pending = [] ∧
    State.pending { errorTwo with pending := [.step] } = .step :: [] := by decide

theorem witness_UnselectedDecoderOperationsDoNothing :
    ¬ InCheck idleS4a ∧ ¬ InCheck runFirst ∧ ¬ InRun doneS4a ∧ ¬ InRun checkS4a ∧
    Instr.dimchk.wholeStep = .check ∧ Instr.finish.wholeStep = .run := by
  unfold InCheck InRun; decide

/-- For the two clauses on checks that are not reached. -/
theorem witness_unreached_checks :
    BreaksACondition (checkWith fun c => { c with s := 4 }).params (checkWith fun c => { c with s := 4 }).cfg ∧
    (checkWith fun c => { c with len := 5 }).cfg.len.toNat % (32 / 8) ≠ 0 :=
  ⟨.inr (.inr (.inl (by decide))), by decide⟩

theorem witness_NopAndReservedCommandsChangeNothing :
    (3 : Reg32).toNat ≠ 0 ∧ (3 : Reg32).toNat ≠ 1 ∧ (3 : Reg32).toNat ≠ 2 := by decide

/-- For the four statements that ask for a value of `STATE`. -/
theorem witness_states :
    idleS4a.state = .idle ∧ runFirst.state ≠ .idle ∧ runFirst.state = .busy ∧ doneS4a.state = .done ∧
    errorTwo.state = .error ∧ errorTwo.state ≠ .idle := by decide

theorem witness_WrinWritesOneByteInIdle :
    (idleS4a.state = .idle ∧ (15 : BitVec 32).toNat < idleS4a.params.inSize) ∧
    idleS4a.params.inSize ≤ (16 : BitVec 32).toNat ∧ doneS4a.state ≠ .idle := by decide

theorem witness_RdoutInDoneAnswersTheGrid :
    Inv doneS4a ∧ doneS4a.state = .done ∧ (0 : BitVec 32).toNat < doneS4a.cfg.n ∧
    (2 : BitVec 32).toNat < doneS4a.cfg.n :=
  ⟨witness_inv_done, rfl, by decide, by decide⟩

theorem witness_RdoutElsewhereAnswersAFreshValue :
    idleS4a.state ≠ .done ∧ doneS4a.cfg.n ≤ (3 : BitVec 32).toNat := by decide

/-! The `CHECK` step. -/

theorem witness_not_breaking : ¬ BreaksACondition small cfgS4a := by unfold BreaksACondition; decide

/-! One state for each clause of the statements about the `CHECK` step and its parts. -/

/-- Every check passes. -/
theorem witness_check_passes :
    InCheck checkS4a ∧ ¬ BreaksACondition small cfgS4a ∧ cfgS4a.len.toNat % (cfgS4a.w.toNat / 8) = 0 ∧
    cfgS4a.len.toNat / (cfgS4a.w.toNat / 8) * cfgS4a.s.toNat = cfgS4a.width.toNat * cfgS4a.height.toNat :=
  ⟨⟨rfl, rfl⟩, witness_not_breaking, by decide⟩

/-- `CFGCHK` fails: V46. -/
theorem witness_check_bad_config :
    InCheck (checkWith fun c => { c with s := 4 }) ∧ BreaksACondition small { cfgS4a with s := 4 } :=
  ⟨⟨rfl, rfl⟩, .inr (.inr (.inl (by decide)))⟩

/-- `LENCHK` fails: V43. -/
theorem witness_check_malformed :
    InCheck (checkWith fun c => { c with len := 5 }) ∧ ¬ BreaksACondition small { cfgS4a with len := 5 } ∧
    (checkWith fun c => { c with len := 5 }).cfg.len.toNat % (32 / 8) ≠ 0 :=
  ⟨⟨rfl, rfl⟩, by unfold BreaksACondition; decide, by decide⟩

/-- `DIMCHK` fails on the empty buffer: V44. -/
theorem witness_check_mismatch :
    InCheck (checkWith fun c => { c with len := 0 }) ∧ ¬ BreaksACondition small { cfgS4a with len := 0 } ∧
    (checkWith fun c => { c with len := 0 }).cfg.len.toNat = 0 ∧ 0 / (32 / 8) * 3 ≠ 3 * 1 :=
  ⟨⟨rfl, rfl⟩, by unfold BreaksACondition; decide, by decide⟩

/-- One-byte words, and a grid whose size is no multiple of `S`. -/
theorem witness_check_corners :
    ¬ BreaksACondition small { cfgS4a with w := 8, b := 8, s := 1 } ∧
    ¬ BreaksACondition small { cfgS4a with width := 4 } ∧
    Cfg.n { cfgS4a with width := 4 } % cfgS4a.s.toNat ≠ 0 :=
  ⟨by unfold BreaksACondition; decide, by unfold BreaksACondition; decide, by decide⟩

/-! The `RUN` step. -/

/-- A state of a run at the first, a middle and the last sample of a word. -/
theorem witness_RunStoresOneNormalizedSample :
    (runFirst.params.wf = true ∧ InRun runFirst ∧ Running runFirst ∧ runFirst.kidx.toNat = 0) ∧
    (InRun runSecond ∧ Running runSecond ∧ runSecond.kidx.toNat + 1 ≠ runSecond.cfg.s.toNat) ∧
    (InRun runLast ∧ Running runLast ∧ runLast.kidx.toNat + 1 = runLast.cfg.s.toNat) :=
  ⟨⟨by decide, ⟨rfl, rfl⟩, witness_running_first, rfl⟩, ⟨⟨rfl, rfl⟩, witness_running_second, by decide⟩,
    ⟨rfl, rfl⟩, witness_running_last, by decide⟩

/-- For `EXTRACT`, `ZEXT`, `BITREV` and `FINISH`. -/
theorem witness_RunOperations :
    InRun runSecond ∧ ¬ BreaksACondition runSecond.params runSecond.cfg ∧
    runSecond.path.raw < 2 ^ runSecond.cfg.b.toNat ∧ runSecond.kidx.toNat < runSecond.cfg.s.toNat ∧
    runSecond.oidx.toNat ≠ 3 * 1 ∧ State.oidx { runSecond with oidx := 3 } = 3 :=
  ⟨⟨rfl, rfl⟩, witness_not_breaking, by decide, by decide, by decide, rfl⟩

theorem witness_RunStepIgnoresStaleWiresAndWord : InRun runFirst ∧ runFirst.kidx = 0 := ⟨⟨rfl, rfl⟩, rfl⟩

theorem witness_RunWithoutALegalConfigurationStops :
    InRun { runFirst with cfg := { cfgS4a with s := 4 } } ∧ BreaksACondition small { cfgS4a with s := 4 } ∧
    Instr.zext.wholeStep = .run := by
  unfold InRun BreaksACondition; decide

/-! The stages as functions. -/

/-- For the three statements about `Normalize`: `B < O`, and `B = O` at the largest value. -/
theorem witness_Normalize : (10 ≤ 16 ∧ 1023 < 2 ^ 10) ∧ (8 ≤ 8 ∧ 255 < 2 ^ 8) := by decide

/-- S2's `[20, 12, 0]` and `[1, 2, 1023]`, two groups of three. -/
theorem witness_PackThenExtractIsTheIdentity :
    let c : Cfg := { cfgS4a with len := 8 }
    let r := [20, 12, 0, 1, 2, 1023]
    (c.w.toNat % 8 = 0 ∧ 0 < c.w.toNat ∧ 0 < c.s.toNat ∧ 0 < c.b.toNat) ∧
    c.s.toNat * c.b.toNat ≤ c.w.toNat ∧ r.length = 2 * c.s.toNat ∧ (∀ v ∈ r, v < 2 ^ c.b.toNat) ∧
    c.len.toNat = 2 * (c.w.toNat / 8) := by decide

/-- V10 and V11: words that differ in their padding alone. -/
theorem witness_PaddingNeverReachesASample :
    ∀ i, i < cfgS4a.nw →
      wordAt cfgS4a.wb (fun _ => 0xFF) i % 2 ^ (cfgS4a.s.toNat * cfgS4a.b.toNat) =
      wordAt cfgS4a.wb (fun a => if a = 3 then 0x3F else 0xFF) i % 2 ^ (cfgS4a.s.toNat * cfgS4a.b.toNat) := by
  decide

theorem witness_GridIsRowMajorAndLosesNothing :
    [1, 2, 3, 4, 5, 6].length = 3 * 2 ∧ [1, 2, 3, 4, 5, 6].length = 2 * 3 ∧
    [1, 2, 3, 4, 5, 6] ∈ grid 6 1 [1, 2, 3, 4, 5, 6] := by decide

/-! The whole machine. -/

theorem witness_EveryStepKeepsTheInvariant : Inv runLast ∧ ∃ t, step runLast = .next t :=
  ⟨witness_inv_run, _, rfl⟩

theorem witness_NothingStopsTheMachine :
    Inv runLast ∧ ∀ w rest, runLast.pending = .bus w :: rest → w.isTransaction = true ∨ w = .reset :=
  ⟨witness_inv_run, fun _ _ h => (by cases h)⟩

/-- A transaction, a decoder step and `RESET`, from states of the invariant. -/
theorem witness_TransitionsAreTheTable :
    Inv idleS4a ∧ IsEvent .start ∧ Inv checkS4a ∧ IsEvent .check ∧ Inv runLast ∧ IsEvent .run ∧
    Inv errorTwo ∧ IsEvent .reset :=
  ⟨witness_inv_idle, .inl rfl, witness_inv_check, .inr (.inl rfl), witness_inv_run, .inr (.inr (.inl rfl)),
    witness_inv_error, .inr (.inr (.inr rfl))⟩

theorem witness_ConfigurationAndBufferAreFrozenOutsideIdle :
    doneS4a.state ≠ .idle ∧ Instr.wrin 0 0xFF ≠ .reset ∧ ∃ t, exec (.wrin 0 0xFF) doneS4a = .next t :=
  ⟨by decide, by decide, _, rfl⟩

theorem witness_WhoWritesWhat :
    (∃ t, exec .run runLast = .next t) ∧ Instr.run ≠ .reset ∧ Instr.run ≠ .store ∧
    (∀ a b, Instr.run ≠ .wrin a b) ∧ Instr.advance ≠ .run ∧ Instr.advance ≠ .fetchw :=
  ⟨⟨_, rfl⟩, by decide, by decide, fun _ _ h => (by cases h), by decide, by decide⟩

theorem witness_NoStepChangesTheParameters : ∃ t, step doneS4a = .next t := ⟨_, rfl⟩

theorem witness_ErrorsStayUntilClearOrReset :
    errorTwo.state = .error ∧ (∃ t, exec .start errorTwo = .next t) ∧ (∃ t, exec .clear errorTwo = .next t) ∧
    ∃ t, exec .reset errorTwo = .next t := ⟨rfl, ⟨_, rfl⟩, ⟨_, rfl⟩, _, rfl⟩

/-- `IDLE` with the configuration of V46, which `CFGCHK` rejects. -/
def idleBad : State := { idleS4a with cfg := { cfgS4a with s := 4 } }

theorem witness_inv_idle_bad : Inv idleBad :=
  ⟨formed_of _ rfl (by decide) (by decide) (by decide) (by decide) (by decide), by decide,
    fun h => (by cases h), fun h => (by cases h), fun h => (by cases h)⟩

/-- A run that succeeds, of four decoder steps, and one that fails, of one. -/
theorem witness_ADecodeLeftAloneComputesTheFrame :
    let s : State := { idleS4a with pending := [hostStart] }
    let bad : State := { idleBad with pending := [hostStart] }
    (Inv s ∧ s.state = .idle ∧ s.pending = [hostStart] ∧ runLength s = 4) ∧
    Inv bad ∧ bad.state = .idle ∧ bad.pending = [hostStart] ∧ runLength bad = 1 :=
  ⟨⟨Inv_congr witness_inv_idle rfl (by decide), rfl, rfl, by decide⟩,
    Inv_congr witness_inv_idle_bad rfl (by decide), rfl, rfl, by decide⟩

/-- The four decoder steps of S4a with host traffic between them, and the one step of a run that
fails. -/
theorem witness_TheMachineComputesDecode :
    let es : List Event := [hostWr .cfgWidth 9, .step, hostRd .status, .step, hostWrin 0 0xFF, .step]
    let s : State := { idleS4a with pending := hostStart :: (es ++ [.step]) }
    let bad : State := { idleBad with pending := [hostStart, .step] }
    (Inv s ∧ s.state = .idle ∧ (∀ e ∈ es, e = .step ∨ e.isTransaction = true) ∧
      es.count .step + 1 = runLength s) ∧
    Inv bad ∧ bad.state = .idle ∧ ([] : List Event).count .step + 1 = runLength bad :=
  ⟨⟨Inv_congr witness_inv_idle rfl (by decide), rfl, by decide, by decide⟩,
    Inv_congr witness_inv_idle_bad rfl (by decide), rfl, by decide⟩

/-- Two states that differ in their padding, in `OUT`, in `WORD` and in the host's traffic. -/
theorem witness_OutcomeDependsOnConfigurationAndBufferAlone :
    let s : State := { idleS4a with pending := hostStart :: ([.step, .step, .step] ++ [.step]) }
    let s' : State :=
      { idleS4a with
        inMem := [(0, 0x14), (1, 0x30), (2, 0x00), (3, 0xC0)], word := 7, outMem := [(0, 5)]
        pending := hostStart :: ([.step, hostNop, .step, .step] ++ [.step]) }
    Inv s ∧ Inv s' ∧ s.state = .idle ∧ s'.state = .idle ∧ s.params = s'.params ∧ s.cfg = s'.cfg ∧
    (∀ i, i < s.cfg.nw → wordAt s.cfg.wb (inByte s) i % 2 ^ (s.cfg.s.toNat * s.cfg.b.toNat) =
      wordAt s.cfg.wb (inByte s') i % 2 ^ (s.cfg.s.toNat * s.cfg.b.toNat)) ∧
    [Event.step, .step, .step].count .step + 1 = runLength s ∧
    [Event.step, hostNop, .step, .step].count .step + 1 = runLength s' :=
  ⟨Inv_congr witness_inv_idle rfl (by decide),
    ⟨formed_of _ rfl (by decide) (by decide) (by decide) (by decide) (by decide), by decide,
      fun h => (by cases h), fun h => (by cases h), fun h => (by cases h)⟩,
    rfl, rfl, rfl, rfl, by decide, by decide, by decide⟩

end Sys2Proof.Tests
end

/-! The default packed word (30_encoding.md R72, R73): the bytes of a word in memory, the bytes of the
packed pattern, and the samples a packed word holds. -/

namespace Sys2Proof.Machine

/-- Words of whole bytes are equal when they agree on every byte. -/
theorem eq_iff_extractLsb'_bytes {n : Nat} (v w : BitVec (8 * n)) :
    v = w ↔ ∀ j, j < n → v.extractLsb' (8 * j) 8 = w.extractLsb' (8 * j) 8 := by
  refine ⟨fun h j _ => by rw [h], fun h => BitVec.eq_of_getLsbD_eq fun i hi => ?_⟩
  have hbit := congrArg (·.getLsbD (i % 8)) (h (i / 8) (by omega))
  simpa [BitVec.getLsbD_extractLsb', Nat.mod_lt, Nat.div_add_mod] using hbit

/-- A word is the one read little-endian at `i * wb` exactly when each of its bytes is the byte at
that byte's address (20_memory.md R51). -/
theorem eq_ofNat_wordAt_iff {wb : Nat} (v : BitVec (8 * wb)) (inp : Nat → Byte) (i : Nat) :
    v = BitVec.ofNat (8 * wb) (wordAt wb inp i) ↔
      ∀ j, j < wb → inp (i * wb + j) = v.extractLsb' (8 * j) 8 := by
  have hbyte : ∀ j, j < wb →
      (BitVec.ofNat (8 * wb) (wordAt wb inp i)).extractLsb' (8 * j) 8 = inp (i * wb + j) := by
    intro j hj
    apply BitVec.eq_of_toNat_eq
    rw [BitVec.extractLsb'_toNat, BitVec.toNat_ofNat, Nat.mod_eq_of_lt (wordAt_lt wb inp i),
      Nat.shiftRight_eq_div_pow, wordAt_byte wb inp i j hj]
  rw [eq_iff_extractLsb'_bytes]
  exact forall₂_congr fun j hj => by rw [hbyte j hj, eq_comm]

/-- A field that crosses the seam of `x ++ y` is the low bits of `x` above the high bits of `y`. -/
theorem extractLsb'_append_across {v w start hi lo : Nat} (x : BitVec v) (y : BitVec w)
    (h : start + lo = w) :
    (x ++ y).extractLsb' start (hi + lo) = x.extractLsb' 0 hi ++ y.extractLsb' start lo := by
  rw [← BitVec.extractLsb'_append_extractLsb'_eq_extractLsb' h.symm,
    BitVec.extractLsb'_append_eq_of_le le_rfl, BitVec.extractLsb'_append_eq_of_add_le h.le,
    Nat.sub_self]

/-- The four bytes of the default packed word, lowest first (30_encoding.md R73). -/
theorem extractLsb'_packedWord_bytes (pad : BitVec 2) (c b a : BitVec 10) :
    (pad ++ c ++ b ++ a).extractLsb' 0 8 = a.extractLsb' 0 8 ∧
    (pad ++ c ++ b ++ a).extractLsb' 8 8 = b.extractLsb' 0 6 ++ a.extractLsb' 8 2 ∧
    (pad ++ c ++ b ++ a).extractLsb' 16 8 = c.extractLsb' 0 4 ++ b.extractLsb' 6 4 ∧
    (pad ++ c ++ b ++ a).extractLsb' 24 8 = pad ++ c.extractLsb' 4 6 := by
  refine ⟨?_, ?_, ?_, ?_⟩
  · rw [BitVec.extractLsb'_append_eq_of_add_le (by decide)]
  · rw [extractLsb'_append_across (hi := 6) (lo := 2) _ _ rfl,
      BitVec.extractLsb'_append_eq_of_add_le (by decide)]
  · rw [BitVec.extractLsb'_append_eq_of_le (by decide),
      extractLsb'_append_across (hi := 4) (lo := 4) _ _ rfl,
      BitVec.extractLsb'_append_eq_of_add_le (by decide)]
  · rw [BitVec.extractLsb'_append_eq_of_le (by decide),
      BitVec.extractLsb'_append_eq_of_le (by decide),
      extractLsb'_append_across (hi := 2) (lo := 6) _ _ rfl, BitVec.extractLsb'_eq_self]

/-- `Extract` of a word takes the field of bits `k * b` to `k * b + b - 1`. -/
theorem extractSample_toNat {n : Nat} (b k : Nat) (w : BitVec n) :
    extractSample b w.toNat k = (w.extractLsb' (k * b) b).toNat := by
  rw [extractSample_eq, BitVec.extractLsb'_toNat, Nat.shiftRight_eq_div_pow]

theorem decode_packedWord_eq_ok_iff (w : BitVec 32) (pad : BitVec 2) (c b a : BitVec 10) :
    decode (.packedWord w) = .ok (.packedwordDefault pad c b a) ↔
      w.extractLsb' 30 2 = pad ∧ w.extractLsb' 20 10 = c ∧ w.extractLsb' 10 10 = b ∧
        w.extractLsb' 0 10 = a := by
  simp only [decode, decodePackedWord, Except.ok.injEq, Instr.packedwordDefault.injEq]

theorem encode_packedwordDefault_eq_iff (pad : BitVec 2) (c b a : BitVec 10) (w : BitVec 32) :
    encode (.packedwordDefault pad c b a) = .packedWord w ↔ pad ++ c ++ b ++ a = w := by
  simp only [encode, Encoded.packedWord.injEq]

/-- A packed word read little-endian from memory, byte by byte (30_encoding.md R73). -/
theorem encode_packedwordDefault_eq_wordAt_iff (inp : Nat → Byte) (i : Nat) (pad : BitVec 2)
    (c b a : BitVec 10) :
    encode (.packedwordDefault pad c b a) = .packedWord (BitVec.ofNat 32 (wordAt 4 inp i)) ↔
      inp (4 * i) = a.extractLsb' 0 8 ∧
      inp (4 * i + 1) = b.extractLsb' 0 6 ++ a.extractLsb' 8 2 ∧
      inp (4 * i + 2) = c.extractLsb' 0 4 ++ b.extractLsb' 6 4 ∧
      inp (4 * i + 3) = pad ++ c.extractLsb' 4 6 := by
  obtain ⟨h0, h1, h2, h3⟩ := extractLsb'_packedWord_bytes pad c b a
  rw [encode_packedwordDefault_eq_iff, eq_ofNat_wordAt_iff (wb := 4), ← h0, ← h1, ← h2, ← h3,
    Nat.mul_comm 4 i]
  simp only [Nat.forall_lt_succ_right, Nat.not_lt_zero, false_implies, implies_true, true_and,
    and_assoc]
  rfl

/-- The samples and the padding of a packed word are its fields (30_encoding.md R72). -/
theorem extractSample_of_decode_packedWord {w : BitVec 32} {pad : BitVec 2} {c b a : BitVec 10}
    (h : decode (.packedWord w) = .ok (.packedwordDefault pad c b a)) :
    extractSample 10 w.toNat 0 = a.toNat ∧ extractSample 10 w.toNat 1 = b.toNat ∧
    extractSample 10 w.toNat 2 = c.toNat ∧ w.toNat / 2 ^ 30 = pad.toNat := by
  obtain ⟨rfl, rfl, rfl, rfl⟩ := (decode_packedWord_eq_ok_iff w pad c b a).mp h
  refine ⟨extractSample_toNat 10 0 w, extractSample_toNat 10 1 w, extractSample_toNat 10 2 w, ?_⟩
  have hlt : w.toNat / 2 ^ 30 < 2 ^ 2 := by omega
  rw [BitVec.extractLsb'_toNat, Nat.shiftRight_eq_div_pow, Nat.mod_eq_of_lt hlt]

/-- Settles O6: by little-endian reading each byte of the packed pattern is the byte at its address,
and the samples of a word are the fields it decodes to. -/
theorem defaultWordLiesInMemoryAsTabled : Obligations.DefaultWordLiesInMemoryAsTabled :=
  fun inp i pad c b a => ⟨encode_packedwordDefault_eq_wordAt_iff inp i pad c b a,
    fun _ h => extractSample_of_decode_packedWord h⟩

end Sys2Proof.Machine

/-! The sample extractor (40_sample_extractor.md): its operations where they are selected, packing as the
inverse of extraction, and the padding that no sample sees. -/

namespace Sys2Proof.Machine

open Sys2Proof.Safety

/-! Its operations. -/

theorem cfgFails_of_not_breaks {p : Params} {c : Cfg} (h : ¬ BreaksACondition p c) :
    cfgFails p c = false :=
  Bool.eq_false_iff.mpr (mt (cfgFails_eq_true_iff p c).mp h)

/-- `LENCHK` where `CFGCHK` has passed: the remainder of the buffer length by the word size decides. -/
theorem exec_lenchk_of_cfg_passed {s : State} (h : InCheck s) (hc : cfgFails s.params s.cfg = false) :
    exec .lenchk s =
      .next (if s.cfg.len.toNat % s.cfg.wb = 0 then s else raise .malformedInput s) := by
  rw [exec_lenchk_of_selected h, lenchkStage, hc, if_neg Bool.false_ne_true]
  by_cases hlen : s.cfg.len.toNat % s.cfg.wb = 0
  · rw [if_pos hlen, (lenFails_eq_false_iff s.cfg).mpr hlen, if_neg Bool.false_ne_true]
  · rw [if_neg hlen, if_pos (Bool.of_not_eq_false (mt (lenFails_eq_false_iff s.cfg).mp hlen))]

/-- Settles O23: the remainder decides, and it is 0 for the empty buffer and for one-byte words. -/
theorem lenchkRaisesMalformedInput : Obligations.LenchkRaisesMalformedInput := by
  intro s hs hb
  have hexec := exec_lenchk_of_cfg_passed hs (cfgFails_of_not_breaks hb)
  have hpass : s.cfg.len.toNat % s.cfg.wb = 0 → exec .lenchk s = .next s := fun h => by
    rw [hexec, if_pos h]
  refine ⟨fun h => hexec.trans (congrArg _ (if_neg h)), hpass, fun h => hpass ?_⟩
  rcases h with hempty | hbyte
  · rw [hempty, Nat.zero_mod]
  · rw [Cfg.wb, hbyte, Nat.mod_one]

/-- Settles O26: in a state of a run the word lies inside the buffer, so `FETCHW` reads it whole. -/
theorem fetchwLatchesTheWord : Obligations.FetchwLatchesTheWord := by
  intro s hs hr
  obtain ⟨-, -, -, -, -, -, hwb, hin, -⟩ := legal_counts hr.legal
  obtain ⟨hc, -, -⟩ := (checkError_eq_none_iff _ _).mp hr.legal
  have hexec := exec_fetchw_of_selected hs hc
  refine ⟨running_word_inside hr, hin, fun _ => ?_, fun hk => ?_⟩
  · refine ⟨_, hexec.trans (fetchStage_of_running hr), ?_, wordAt_byte _ _ _⟩
    rw [← hwb, Nat.mul_comm]
    exact wordAt_lt _ _ _
  · exact hexec.trans (fetchStage_of_later fun h0 => hk (by rw [h0]; rfl))

/-- A lane below `S` ends inside the `S * B` sample bits. -/
theorem lane_end_le {k s : Nat} (b : Nat) (hk : k < s) : k * b + b ≤ s * b := by
  rw [← Nat.succ_mul]
  exact Nat.mul_le_mul_right b hk

/-- Settles O27: `EXTRACT` puts `Extract(WORD, KIDX)` on the raw wire, in each form of R92. -/
theorem extractTakesLaneK : Obligations.ExtractTakesLaneK := by
  intro s hs hb
  have hc := cfgFails_of_not_breaks hb
  obtain ⟨-, -, -, -, -, hfit, -⟩ := (cfgFails_eq_false_iff _ _).mp hc
  exact ⟨_, exec_extract_of_selected hs hc, rfl, extractSample_eq _ _ _,
    fun hk => (lane_end_le _ hk).trans hfit, testBit_extractSample _ _ _⟩

/-! The sample stream. -/

/-- Sample `p` of the stream lies in lane `p mod S`, below `S`, of word `p / S`, below `NW`. -/
theorem lane_of_lt_ns {c : Cfg} {p : Nat} (h : p < c.ns) :
    p / c.s.toNat < c.nw ∧ p % c.s.toNat < c.s.toNat := by
  have hs : 0 < c.s.toNat := Nat.pos_of_mul_pos_left (Nat.zero_lt_of_lt h)
  exact ⟨(Nat.div_lt_iff_lt_mul hs).mpr h, Nat.mod_lt _ hs⟩

theorem rawSeq_getElem {c : Cfg} {inp : Nat → Byte} {p : Nat} (h : p < (rawSeq c inp).length) :
    (rawSeq c inp)[p] = rawAt c inp p := by
  simp only [rawSeq, List.getElem_map, List.getElem_range]

/-! Padding. -/

/-- A lane below `S` reads the low `S * B` bits of the word and nothing above them. -/
theorem extractSample_mod {k s : Nat} (b word : Nat) (hk : k < s) :
    extractSample b (word % 2 ^ (s * b)) k = extractSample b word k := by
  refine Nat.eq_of_testBit_eq fun i => ?_
  rw [testBit_extractSample, testBit_extractSample, Nat.testBit_mod_two_pow]
  by_cases hi : i < b
  · have hlane := lane_end_le b hk
    rw [decide_eq_true (show k * b + i < s * b by omega), Bool.true_and]
  · rw [decide_eq_false hi, Bool.false_and, Bool.false_and]

theorem rawSeq_congr_of_sample_bits {c : Cfg} {inp inp' : Nat → Byte}
    (h : ∀ i, i < c.nw → wordAt c.wb inp i % 2 ^ (c.s.toNat * c.b.toNat) =
      wordAt c.wb inp' i % 2 ^ (c.s.toNat * c.b.toNat)) : rawSeq c inp = rawSeq c inp' := by
  refine List.map_congr_left fun p hp => ?_
  obtain ⟨hword, hlane⟩ := lane_of_lt_ns (List.mem_range.mp hp)
  rw [rawAt, rawAt, ← extractSample_mod _ _ hlane, h _ hword, extractSample_mod _ _ hlane]

/-- `Decode` sees the buffer through its samples alone (43_sequencer.md R128). -/
theorem decodeFrame_congr_of_rawSeq (p : Params) {c : Cfg} {inp inp' : Nat → Byte}
    (h : rawSeq c inp = rawSeq c inp') : decodeFrame p c inp = decodeFrame p c inp' := by
  rw [decodeFrame, decodeFrame, normSeq, normSeq, h]

/-- Settles O42: no lane reaches the padding, and `Decode` sees the lanes alone. -/
theorem paddingNeverReachesASample : Obligations.PaddingNeverReachesASample := fun p _ _ _ h =>
  have hraw := rawSeq_congr_of_sample_bits h
  ⟨hraw, decodeFrame_congr_of_rawSeq p hraw⟩

/-! Packing. -/

/-- The sum of the low `n` digits of a number in base `2^w`. -/
theorem sumBelow_digits_of (w n v : Nat) :
    sumBelow n (fun i => v / 2 ^ (w * i) % 2 ^ w * 2 ^ (w * i)) = v % 2 ^ (w * n) := by
  induction n with
  | zero => rw [sumBelow, Nat.mul_zero, pow_zero, Nat.mod_one]
  | succ n ih => rw [sumBelow, ih, Nat.mul_succ, pow_add, Nat.mod_mul, Nat.mul_comm (2 ^ (w * n))]

/-- `PackWord` as a sum of digits in base `2^B`. -/
theorem packWord_eq_sum_digits (b : Nat) (r : List Nat) :
    packWord b r = sumBelow r.length fun k => r.getD k 0 * 2 ^ (b * k) :=
  sumBelow_congr fun k _ => by rw [Nat.mul_comm k b]

theorem getD_lt_of_forall_mem {r : List Nat} {n k : Nat} (h : ∀ v ∈ r, v < n) (hk : k < r.length) :
    r.getD k 0 < n := by
  rw [List.getD_eq_getElem r 0 hk]
  exact h _ (List.getElem_mem hk)

theorem packWord_lt {b : Nat} {r : List Nat} (h : ∀ v ∈ r, v < 2 ^ b) :
    packWord b r < 2 ^ (r.length * b) := by
  rw [packWord_eq_sum_digits, Nat.mul_comm]
  exact sumBelow_digits_lt b r.length _ fun _ hk => getD_lt_of_forall_mem h hk

/-- Lane `k` of a packed word is value `k`. -/
theorem extractSample_packWord {b k : Nat} {r : List Nat} (h : ∀ v ∈ r, v < 2 ^ b)
    (hk : k < r.length) : extractSample b (packWord b r) k = r.getD k 0 := by
  rw [extractSample_eq, packWord_eq_sum_digits, Nat.mul_comm k b]
  exact sumBelow_digit b r.length k _ (fun _ hi => getD_lt_of_forall_mem h hi) hk

@[simp] theorem wordBytes_length (wb word : Nat) : (wordBytes wb word).length = wb := by
  rw [wordBytes, List.length_map, List.length_range]

theorem wordBytes_getD {wb j : Nat} (word : Nat) (hj : j < wb) :
    (wordBytes wb word).getD j 0 = BitVec.ofNat 8 (word >>> (8 * j)) := by
  simp [wordBytes, hj]

@[simp] theorem packGroups_length (b s wb groups : Nat) (r : List Nat) :
    (packGroups b s wb groups r).length = groups * wb := by
  induction groups generalizing r with
  | zero => rw [packGroups, List.length_nil, Nat.zero_mul]
  | succ g ih => rw [packGroups, List.length_append, wordBytes_length, ih, Nat.succ_mul, Nat.add_comm]

/-- Group `i` of `s` values (40_sample_extractor.md R97). -/
def groupAt (s : Nat) (r : List Nat) (i : Nat) : List Nat := (r.drop (i * s)).take s

theorem groupAt_zero (s : Nat) (r : List Nat) : groupAt s r 0 = r.take s := by
  rw [groupAt, Nat.zero_mul, List.drop_zero]

theorem groupAt_succ (s : Nat) (r : List Nat) (i : Nat) :
    groupAt s r (i + 1) = groupAt s (r.drop s) i := by
  rw [groupAt, groupAt, List.drop_drop, Nat.succ_mul, Nat.add_comm]

theorem mem_of_mem_groupAt {s i v : Nat} {r : List Nat} (h : v ∈ groupAt s r i) : v ∈ r :=
  List.mem_of_mem_drop (List.mem_of_mem_take h)

/-- Group `i` of a sequence of whole groups is whole. -/
theorem groupAt_length {s groups i : Nat} {r : List Nat} (hr : r.length = groups * s)
    (hi : i < groups) : (groupAt s r i).length = s := by
  have := Nat.mul_le_mul_right s (Nat.succ_le_of_lt hi)
  rw [Nat.succ_mul] at this
  rw [groupAt, List.length_take, List.length_drop]
  omega

theorem groupAt_getD {s i k : Nat} (r : List Nat) (hk : k < s) :
    (groupAt s r i).getD k 0 = r.getD (i * s + k) 0 := by
  simp [groupAt, List.getD_eq_getElem?_getD, hk]

/-- Byte `j` of word `i` of the packed buffer is byte `j` of packed group `i`. -/
theorem packGroups_getD {b s wb groups i j : Nat} (r : List Nat) (hi : i < groups) (hj : j < wb) :
    (packGroups b s wb groups r).getD (i * wb + j) 0 =
      BitVec.ofNat 8 (packWord b (groupAt s r i) >>> (8 * j)) := by
  induction groups generalizing r i with
  | zero => exact absurd hi (Nat.not_lt_zero i)
  | succ g ih =>
    rw [packGroups]
    cases i with
    | zero =>
      rw [Nat.zero_mul, Nat.zero_add, List.getD_append _ _ _ _ (by rwa [wordBytes_length]),
        wordBytes_getD _ hj, groupAt_zero]
    | succ i =>
      have hat : (i + 1) * wb + j = wb + (i * wb + j) := by ring
      rw [hat, List.getD_append_right _ _ _ _ (by rw [wordBytes_length]; omega), wordBytes_length,
        Nat.add_sub_cancel_left, ih (r.drop s) (Nat.lt_of_succ_lt_succ hi), groupAt_succ]

/-- Word `i` of the packed buffer is packed group `i`, as far as it fits the word. -/
theorem wordAt_packGroups {b s wb groups i : Nat} (r : List Nat) (hi : i < groups) :
    wordAt wb (fun a => (packGroups b s wb groups r).getD a 0) i =
      packWord b (groupAt s r i) % 2 ^ (8 * wb) := by
  rw [← sumBelow_digits_of]
  refine sumBelow_congr fun j hj => ?_
  beta_reduce
  rw [packGroups_getD r hi hj, BitVec.toNat_ofNat, Nat.shiftRight_eq_div_pow]

/-- Lane `k` of word `i` of the packed buffer is value `k` of group `i`. -/
theorem extractSample_wordAt_packGroups {b s wb groups i k : Nat} {r : List Nat}
    (hfit : s * b ≤ 8 * wb) (hr : r.length = groups * s) (h : ∀ v ∈ r, v < 2 ^ b) (hi : i < groups)
    (hk : k < s) :
    extractSample b (wordAt wb (fun a => (packGroups b s wb groups r).getD a 0) i) k =
      r.getD (i * s + k) 0 := by
  have hlen := groupAt_length hr hi
  have hgroup : ∀ v ∈ groupAt s r i, v < 2 ^ b := fun v hv => h v (mem_of_mem_groupAt hv)
  have hlt := packWord_lt hgroup
  rw [hlen] at hlt
  rw [wordAt_packGroups r hi, Nat.mod_eq_of_lt (hlt.trans_le (Nat.pow_le_pow_right two_pos hfit)),
    extractSample_packWord hgroup (by rwa [hlen]), groupAt_getD r hk]

/-- Settles O41: sample `p` lies in lane `p mod S` of word `p / S`, which is value `p mod S` of group
`p / S`. -/
theorem packThenExtractIsTheIdentity : Obligations.PackThenExtractIsTheIdentity := by
  intro c r groups hw8 hw _ _ hfit hr hv hlen
  have hwb : 8 * c.wb = c.w.toNat := Nat.mul_div_cancel' (Nat.dvd_of_mod_eq_zero hw8)
  have hnw : c.nw = groups := by
    rw [Cfg.nw, hlen]
    exact Nat.mul_div_cancel groups (show 0 < c.wb by omega)
  have hns : c.ns = r.length := by rw [Cfg.ns, hnw, hr]
  refine ⟨(packGroups_length ..).trans hlen.symm, List.ext_getElem (by rw [rawSeq_length, hns]) ?_⟩
  intro p hp hpr
  obtain ⟨hword, hlane⟩ := lane_of_lt_ns (hpr.trans_eq hns.symm)
  rw [hnw] at hword
  rw [rawSeq_getElem]
  calc rawAt c _ p = r.getD (p / c.s.toNat * c.s.toNat + p % c.s.toNat) 0 :=
        extractSample_wordAt_packGroups (hfit.trans_eq hwb.symm) hr hv hword hlane
    _ = r[p] := by rw [Nat.div_add_mod', List.getD_eq_getElem r 0 hpr]

end Sys2Proof.Machine

/-! The bit-reversal normalizer (41_bit_reversal_normalizer.md): `ZEXT` where it is selected, reversal as
an involution, and `Normalize` as a reversal of `B` bits scaled by `2^(O-B)`. -/

namespace Sys2Proof.Machine

open Sys2Proof.Safety

theorem testBit_zeroExtend_of_lt {b o i : Nat} (raw : Nat) (hbo : b ≤ o) (hi : i < b) :
    (zeroExtend b o raw).testBit i = raw.testBit i := by
  rw [testBit_zeroExtend, decide_eq_true (hi.trans_le hbo), decide_eq_true hi, Bool.true_and,
    Bool.true_and]

theorem testBit_zeroExtend_of_le {b i : Nat} (o raw : Nat) (hi : b ≤ i) :
    (zeroExtend b o raw).testBit i = false := by
  rw [testBit_zeroExtend, decide_eq_false hi.not_gt, Bool.and_false, Bool.false_and]

/-- Settles O28: `ZEXT` puts `zext_O(raw)` on the x wire, and `B` is at most `O` where `CFGCHK` passes. -/
theorem zextKeepsTheValue : Obligations.ZextKeepsTheValue := by
  intro s hs hb
  have hc := cfgFails_of_not_breaks hb
  obtain ⟨-, -, -, -, -, -, hbo, -⟩ := (cfgFails_eq_false_iff _ _).mp hc
  exact ⟨_, exec_zext_of_selected hs hc, fun _ => testBit_zeroExtend_of_lt _ hbo,
    fun _ => testBit_zeroExtend_of_le _ _, zeroExtend_of_lt hbo⟩

/-! Reversal. -/

theorem bitRev_bitRev {n x : Nat} (h : x < 2 ^ n) : bitRev n (bitRev n x) = x := by
  refine Nat.eq_of_testBit_eq fun j => ?_
  rw [testBit_bitRev, testBit_bitRev]
  by_cases hj : j < n
  · have hback : n - 1 - (n - 1 - j) = j := by omega
    rw [hback, decide_eq_true hj, decide_eq_true (show n - 1 - j < n by omega), Bool.true_and,
      Bool.true_and]
  · have hx : x.testBit j = false :=
      Nat.testBit_lt_two_pow (h.trans_le (Nat.pow_le_pow_right two_pos (not_lt.mp hj)))
    rw [decide_eq_false hj, Bool.false_and, hx]

/-- Reversing in `o` bits a value of `b` bits is reversing it in `b` bits and scaling: bit `i` goes to
bit `(o-b) + (b-1-i)`. -/
theorem bitRev_eq_two_pow_mul {b o x : Nat} (hbo : b ≤ o) (h : x < 2 ^ b) :
    bitRev o x = 2 ^ (o - b) * bitRev b x := by
  refine Nat.eq_of_testBit_eq fun j => ?_
  rw [testBit_bitRev, Nat.testBit_two_pow_mul, testBit_bitRev]
  by_cases hlow : j < o - b
  · have hx : x.testBit (o - 1 - j) = false :=
      Nat.testBit_lt_two_pow (h.trans_le (Nat.pow_le_pow_right two_pos (by omega)))
    rw [hx, Bool.and_false, decide_eq_false (not_le.mpr hlow), Bool.false_and]
  · have hsource : b - 1 - (j - (o - b)) = o - 1 - j := by omega
    have hrange : j - (o - b) < b ↔ j < o := by omega
    rw [decide_eq_true (not_lt.mp hlow), Bool.true_and, hsource, decide_eq_decide.mpr hrange]

theorem bitRev_two_pow_sub_one (n : Nat) : bitRev n (2 ^ n - 1) = 2 ^ n - 1 := by
  refine Nat.eq_of_testBit_eq fun j => ?_
  rw [testBit_bitRev, Nat.testBit_two_pow_sub_one, Nat.testBit_two_pow_sub_one]
  by_cases hj : j < n
  · rw [decide_eq_true (show n - 1 - j < n by omega), Bool.and_true]
  · rw [decide_eq_false hj, Bool.false_and]

/-! `Normalize`. -/

/-- `Normalize` of a raw sample is its `O`-bit reversal, since `zext` keeps its value. -/
theorem normalizeSample_eq_bitRev {b o raw : Nat} (hbo : b ≤ o) (h : raw < 2 ^ b) :
    normalizeSample b o raw = bitRev o raw := by
  rw [normalizeSample, zeroExtend_of_lt hbo h]

/-- The closed form of 41_bit_reversal_normalizer.md R102. -/
theorem normalizeSample_eq_two_pow_mul {b o raw : Nat} (hbo : b ≤ o) (h : raw < 2 ^ b) :
    normalizeSample b o raw = 2 ^ (o - b) * bitRev b raw :=
  (normalizeSample_eq_bitRev hbo h).trans (bitRev_eq_two_pow_mul hbo h)

theorem normalizeSample_bitRev {b o raw : Nat} (hbo : b ≤ o) (h : raw < 2 ^ b) :
    normalizeSample b o (bitRev b raw) = raw * 2 ^ (o - b) := by
  rw [normalizeSample_eq_two_pow_mul hbo (bitRev_lt b raw), bitRev_bitRev h, Nat.mul_comm]

theorem normalizeSample_two_pow_sub_one {b o : Nat} (hbo : b ≤ o) :
    normalizeSample b o (2 ^ b - 1) = (2 ^ b - 1) * 2 ^ (o - b) := by
  rw [normalizeSample_eq_two_pow_mul hbo (Nat.sub_one_lt_of_lt (Nat.two_pow_pos b)),
    bitRev_two_pow_sub_one, Nat.mul_comm]

/-- Settles O38: the closed form gives the low zero bits and the bound, and the reversal of a quotient
normalizes to its multiple of `2^(O-B)`. -/
theorem normalizeIsTheScaledReversal : Obligations.NormalizeIsTheScaledReversal := by
  intro b o raw hbo h
  have hclosed := normalizeSample_eq_two_pow_mul hbo h
  refine ⟨hclosed, ?_, ?_, normalizeSample_two_pow_sub_one hbo, bitRev b raw, bitRev_lt b raw,
    normalizeSample_bitRev hbo h⟩
  · rw [hclosed, Nat.mul_mod_right]
  · rw [hclosed, Nat.mul_comm]
    exact Nat.mul_le_mul_right _ (Nat.le_sub_one_of_lt (bitRev_lt b raw))

/-- Settles O39: bit `j` goes to `O-1-j` and back, and `Normalize` is one such reversal. -/
theorem bitReversalIsAnInvolution : Obligations.BitReversalIsAnInvolution := by
  refine ⟨fun o x => bitRev_bitRev, fun b o raw hbo h => ?_⟩
  rw [normalizeSample_eq_bitRev hbo h]
  exact bitRev_bitRev (h.trans_le (Nat.pow_le_pow_right two_pos hbo))

/-- Settles O40: reversal and shift scale by the same `2^(O-B)`, so they agree where the reversal is the
sample itself. -/
theorem normalizeIsAShiftOnlyOnPalindromes : Obligations.NormalizeIsAShiftOnlyOnPalindromes := by
  refine ⟨fun b o raw hbo h => ?_, by decide⟩
  rw [normalizeSample_eq_two_pow_mul hbo h, Nat.shiftLeft_eq, Nat.mul_comm raw]
  exact Nat.mul_right_inj (Nat.two_pow_pos (o - b)).ne'

end Sys2Proof.Machine

/-! The raster assembler (42_raster_assembler.md): `DIMCHK` where it is selected, and the sample counts
that can be no grid's. -/

namespace Sys2Proof.Machine

open Sys2Proof.Safety

/-- `DIMCHK` where `CFGCHK` and `LENCHK` have passed: the sample count against the grid's decides. -/
theorem exec_dimchk_of_len_passed {s : State} (h : InCheck s) (hc : cfgFails s.params s.cfg = false)
    (hl : lenFails s.cfg = false) :
    exec .dimchk s = .next (if s.cfg.ns = s.cfg.n then s else raise .dimensionMismatch s) := by
  rw [exec_dimchk_of_selected h, dimchkStage, hc, hl, Bool.false_or, if_neg Bool.false_ne_true]
  by_cases hdim : s.cfg.ns = s.cfg.n
  · rw [if_pos hdim, (dimFails_eq_false_iff s.cfg).mpr hdim, if_neg Bool.false_ne_true]
  · rw [if_neg hdim, if_pos (Bool.of_not_eq_false (mt (dimFails_eq_false_iff s.cfg).mp hdim))]

theorem n_ne_zero_of_cfg_passed {p : Params} {c : Cfg} (hc : cfgFails p c = false) : c.n ≠ 0 := by
  obtain ⟨-, -, -, -, -, -, -, -, hwidth, hheight, -⟩ := (cfgFails_eq_false_iff p c).mp hc
  exact Nat.mul_ne_zero hwidth hheight

theorem ns_eq_zero_of_len_eq_zero {c : Cfg} (h : c.len.toNat = 0) : c.ns = 0 := by
  rw [Cfg.ns, Cfg.nw, h, Nat.zero_div, Nat.zero_mul]

theorem ns_mod_s (c : Cfg) : c.ns % c.s.toNat = 0 := Nat.mul_mod_left c.nw c.s.toNat

/-- Settles O24: the two counts decide; the empty buffer has no sample where a grid has one, and a buffer
has whole words of `S` samples, which `N` is not when `S` does not divide it. -/
theorem dimchkRaisesDimensionMismatch : Obligations.DimchkRaisesDimensionMismatch := by
  intro s hs hb hlen
  have hc := cfgFails_of_not_breaks hb
  have hexec := exec_dimchk_of_len_passed hs hc ((lenFails_eq_false_iff s.cfg).mpr hlen)
  have hfail : s.cfg.ns ≠ s.cfg.n → exec .dimchk s = .next (raise .dimensionMismatch s) := fun h => by
    rw [hexec, if_neg h]
  refine ⟨hfail, fun h => hexec.trans (congrArg _ (if_pos h)), fun hempty => hfail fun hdim => ?_,
    fun hpartial => hfail fun hdim => hpartial ?_⟩
  · exact n_ne_zero_of_cfg_passed hc (hdim.symm.trans (ns_eq_zero_of_len_eq_zero hempty))
  · change s.cfg.n % s.cfg.s.toNat = 0
    rw [← hdim, ns_mod_s]

end Sys2Proof.Machine

/-! The sequencer (43_sequencer.md): the `CHECK` step by its first failing check, the `RUN` step by the
sample it stores, and the transition table. -/

namespace Sys2Proof.Machine

open Sys2Proof.Safety

/-! The `CHECK` step. -/

theorem checkError_of_breaks {p : Params} {c : Cfg} (h : BreaksACondition p c) :
    checkError p c = some .badConfig :=
  if_pos ((cfgFails_eq_true_iff p c).mpr h)

theorem checkError_of_partial_word {p : Params} {c : Cfg} (hc : cfgFails p c = false)
    (h : c.len.toNat % c.wb ≠ 0) : checkError p c = some .malformedInput := by
  rw [checkError, hc, if_neg Bool.false_ne_true,
    if_pos (Bool.of_not_eq_false (mt (lenFails_eq_false_iff c).mp h))]

theorem checkError_of_count_mismatch {p : Params} {c : Cfg} (hc : cfgFails p c = false)
    (hl : c.len.toNat % c.wb = 0) (h : c.ns ≠ c.n) : checkError p c = some .dimensionMismatch := by
  rw [checkError, hc, (lenFails_eq_false_iff c).mpr hl, if_neg Bool.false_ne_true,
    if_neg Bool.false_ne_true, if_pos (Bool.of_not_eq_false (mt (dimFails_eq_false_iff c).mp h))]

theorem checkError_eq_none_of_pass {p : Params} {c : Cfg} (hc : cfgFails p c = false)
    (hl : c.len.toNat % c.wb = 0) (h : c.ns = c.n) : checkError p c = none :=
  (checkError_eq_none_iff p c).mpr
    ⟨hc, (lenFails_eq_false_iff c).mpr hl, (dimFails_eq_false_iff c).mpr h⟩

theorem exec_check_of_error {s : State} {e : ErrCode} (h : InCheck s)
    (he : checkError s.params s.cfg = some e) : exec .check s = .next (raise e s) := by
  rw [exec_check_of_selected h, checkStep_of_error he]

theorem exec_check_of_none {s : State} (h : InCheck s) (he : checkError s.params s.cfg = none) :
    exec .check s = .next { s with phase := .run } := by
  rw [exec_check_of_selected h, checkStep_of_none he]

/-- Settles O21: the conditions, in their order, are the cases of `checkError`; a configuration that
passes has a word and a sample. -/
theorem checkReportsTheFirstFailingCheck : Obligations.CheckReportsTheFirstFailingCheck := by
  intro s hs
  refine ⟨fun hb => exec_check_of_error hs (checkError_of_breaks hb), fun hb hl => ?_,
    fun hb hl hd => ?_, fun hb hl hd => ?_, fun hinv => hinv.check hs.1 hs.2⟩
  · exact exec_check_of_error hs (checkError_of_partial_word (cfgFails_of_not_breaks hb) hl)
  · exact exec_check_of_error hs (checkError_of_count_mismatch (cfgFails_of_not_breaks hb) hl hd)
  · have hpass := checkError_eq_none_of_pass (cfgFails_of_not_breaks hb) hl hd
    obtain ⟨-, -, -, hn, hnw, -⟩ := legal_counts hpass
    exact ⟨exec_check_of_none hs hpass, hn, hnw⟩

/-- Settles O22: `CFGCHK` asks `cfgFails`, which is the eight conditions. -/
theorem cfgchkRaisesBadConfig : Obligations.CfgchkRaisesBadConfig := by
  intro s hs
  rw [exec_cfgchk_of_selected hs, cfgchkStage]
  exact ⟨fun hb => by rw [if_pos ((cfgFails_eq_true_iff _ _).mpr hb)]; rfl,
    fun hb => by rw [if_neg (mt (cfgFails_eq_true_iff _ _).mp hb)]⟩

/-! The `RUN` step. -/

theorem cfgFails_of_legal {s : State} (h : Legal s) : cfgFails s.params s.cfg = false :=
  ((checkError_eq_none_iff _ _).mp h).1

/-- `ADVANCE` keeps `OIDX = WIDX * S + KIDX` (43_sequencer.md R125). -/
theorem advanceStage_position {s : State} (hp : s.params.wf = true) (h : Running s) :
    (advanceStage s).oidx.toNat =
      (advanceStage s).widx.toNat * s.cfg.s.toNat + (advanceStage s).kidx.toNat := by
  obtain ⟨ho, hend, hinside⟩ := advanceStage_of_running hp h
  have hpos := h.position
  by_cases hk : s.kidx.toNat + 1 = s.cfg.s.toNat
  · obtain ⟨ek, ew⟩ := hend hk
    rw [ho, ek, ew, Nat.succ_mul]
    omega
  · obtain ⟨ek, ew⟩ := hinside hk
    rw [ho, ek, ew]
    omega

/-- Settles O31: the counters have room in a state of a run, and the position moves by one sample. -/
theorem advanceMovesToTheNextSample : Obligations.AdvanceMovesToTheNextSample := by
  intro s hp hs hr
  obtain ⟨ho, hend, hinside⟩ := advanceStage_of_running hp hr
  exact ⟨_, exec_advance_of_selected hs (cfgFails_of_legal hr.legal), rfl, ho, hend, hinside,
    advanceStage_position hp hr⟩

/-- What a `RUN` step leaves in a state of a run: sample `OIDX` is stored, the counters have moved, and
the decode has ended if it was the last sample (43_sequencer.md R124). -/
def sampleTaken (s : State) : State := finishStage (advanceStage (sampleStored s))

theorem exec_run_of_running {s : State} (h : InRun s) (hr : Running s) :
    exec .run s = .next (sampleTaken s) :=
  (exec_run_of_selected h (cfgFails_of_legal hr.legal)).trans (runStep_of_running hr)

@[simp] theorem sampleTaken_params (s : State) : (sampleTaken s).params = s.params := rfl
@[simp] theorem sampleTaken_cfg (s : State) : (sampleTaken s).cfg = s.cfg := rfl
@[simp] theorem sampleTaken_err (s : State) : (sampleTaken s).err = s.err := rfl
@[simp] theorem sampleTaken_phase (s : State) : (sampleTaken s).phase = s.phase := rfl
@[simp] theorem sampleTaken_widx (s : State) : (sampleTaken s).widx = (advanceStage s).widx := rfl
@[simp] theorem sampleTaken_kidx (s : State) : (sampleTaken s).kidx = (advanceStage s).kidx := rfl
@[simp] theorem sampleTaken_oidx (s : State) : (sampleTaken s).oidx = (advanceStage s).oidx := rfl
@[simp] theorem sampleTaken_word (s : State) :
    (sampleTaken s).word = wordAt s.cfg.wb (inByte s) s.widx.toNat := rfl
@[simp] theorem sampleTaken_pending (s : State) : (sampleTaken s).pending = s.pending := rfl
@[simp] theorem inByte_sampleTaken (s : State) : inByte (sampleTaken s) = inByte s :=
  inByte_congr rfl rfl

theorem outCell_sampleTaken (s : State) (k : Nat) :
    outCell (sampleTaken s) k =
      if k = s.oidx.toNat then normAt s.cfg (inByte s) s.oidx.toNat else outCell s k :=
  outCell_sampleStored s k

theorem sampleTaken_state {s : State} (hp : s.params.wf = true) (h : Running s) :
    (sampleTaken s).state = if s.oidx.toNat + 1 = s.cfg.n then .done else s.state := by
  rw [← (advanceStage_of_running hp h).1]
  rfl

/-- Settles O34: the sample's word and lane are `WIDX` and `KIDX`, and the parts of the step each touch
their own field. -/
theorem runStoresOneNormalizedSample : Obligations.RunStoresOneNormalizedSample := by
  intro s hp hs hr
  obtain ⟨ho, hend, hinside⟩ := advanceStage_of_running hp hr
  refine ⟨_, exec_run_of_running hs hr, ?_, fun i hi => ?_, rfl, ho, hend, hinside, ?_, rfl⟩
  · rw [outCell_sampleTaken, if_pos rfl]
    rfl
  · rw [outCell_sampleTaken, if_neg hi]
  · rw [sampleTaken_state hp hr, hs.1]
    rfl

/-! What a `RUN` step keeps. -/

/-- The cell a `RUN` step stores continues the cells stored before it. -/
theorem filled_sampleTaken {s : State} (h : Filled s s.oidx.toNat) :
    Filled (sampleTaken s) (s.oidx.toNat + 1) := by
  intro i hi
  rw [outCell_sampleTaken, sampleTaken_cfg, inByte_sampleTaken]
  by_cases hlast : i = s.oidx.toNat
  · rw [if_pos hlast, hlast]
  · rw [if_neg hlast]
    exact h i (by omega)

/-- A `RUN` step before the last sample leaves a state of a run. -/
theorem running_sampleTaken {s : State} (hp : s.params.wf = true) (h : Running s)
    (hmore : s.oidx.toNat + 1 < s.cfg.n) : Running (sampleTaken s) := by
  obtain ⟨ho, hend, hinside⟩ := advanceStage_of_running hp h
  obtain ⟨-, hs, hns, -⟩ := legal_counts h.legal
  have hpos := advanceStage_position hp h
  have hkidx := h.kidx
  have hlane : (advanceStage s).kidx.toNat < s.cfg.s.toNat := by
    by_cases hk : s.kidx.toNat + 1 = s.cfg.s.toNat
    · rw [(hend hk).1]; exact hs
    · rw [(hinside hk).1]; omega
  refine ⟨h.legal, hpos, ho ▸ hmore, hlane, ?_, fun hk => ?_, ?_⟩
  · have : (advanceStage s).widx.toNat * s.cfg.s.toNat < s.cfg.nw * s.cfg.s.toNat := by omega
    exact Nat.lt_of_mul_lt_mul_right this
  · have hsame : s.kidx.toNat + 1 ≠ s.cfg.s.toNat := fun he => hk.ne' (hend he).1
    rw [sampleTaken_word, sampleTaken_cfg, inByte_sampleTaken, sampleTaken_widx, (hinside hsame).2]
  · rw [sampleTaken_oidx, ho]
    exact filled_sampleTaken h.filled

/-- A `CHECK` step that passes leaves the first state of a run (43_sequencer.md R122). -/
theorem running_of_check_passed {s : State} (h : Legal s) (hw : s.widx = 0) (hk : s.kidx = 0)
    (ho : s.oidx = 0) : Running { s with phase := .run } := by
  obtain ⟨-, hs, -, hn, hnw, -⟩ := legal_counts h
  exact
    { legal := h
      position := by simp [hw, hk, ho]
      oidx := by simpa [ho] using hn
      kidx := by simpa [hk] using hs
      widx := by simpa [hw] using hnw
      word := fun hpos => absurd hpos (by simp [hk])
      filled := fun i hi => absurd hi (by simp [ho]) }

/-! Host transactions. -/

/-- Everything a host transaction can be (44_host_interface.md): one of the four that look at `STATE` or
at a memory, or an operation that changes nothing, writes a configuration register or answers a register. -/
inductive TransactionEffect : Instr → Prop where
  | start : TransactionEffect .start
  | clear : TransactionEffect .clear
  | wrin (a : BitVec 32) (b : Byte) : TransactionEffect (.wrin a b)
  | rdout (k : BitVec 32) : TransactionEffect (.rdout k)
  | inert {i : Instr} (h : ∀ s, exec i s = .next s) : TransactionEffect i
  | configures {i : Instr} (f : Cfg → Cfg) (h : ∀ s, exec i s = .next (writeCfg f s)) :
    TransactionEffect i
  | answers {i : Instr} (r : State → Response) (h : ∀ s, exec i s = .next (respond (r s) s)) :
    TransactionEffect i

theorem transactionEffect_of_isTransaction {i : Instr} (h : (encode i).isTransaction = true) :
    TransactionEffect i := by
  cases i with
  | start => exact .start
  | clear => exact .clear
  | wrin a b => exact .wrin a b
  | rdout k => exact .rdout k
  | nop | cmdReserved _ | wrstatus _ | regwReserved _ _ => exact .inert fun _ => rfl
  | wrregCfgW _ | wrregCfgB _ | wrregCfgS _ | wrregCfgO _ | wrregCfgWidth _ | wrregCfgHeight _
  | wrregCfgLen _ => exact .configures _ fun _ => rfl
  | rdregCmd | rdregStatus | rdregCfgW | rdregCfgB | rdregCfgS | rdregCfgO | rdregCfgWidth
  | rdregCfgHeight | rdregCfgLen | regrReserved _ => exact .answers _ fun _ => rfl
  | reset | check | cfgchk | lenchk | dimchk | run | fetchw | extract | zext | bitrev | store
  | advance | finish | packedwordDefault _ _ _ _ | normsampleDefault _ => cases h

theorem exec_wrin (a : BitVec 32) (b : Byte) (s : State) :
    exec (.wrin a b) s =
      .next (if s.state = .idle ∧ a.toNat < s.params.inSize then setIn a.toNat b s else s) := rfl

theorem exec_rdout (k : BitVec 32) (s : State) :
    exec (.rdout k) s =
      .next (if s.state = .done ∧ k.toNat < s.cfg.n then respond (.cell (outCell s k.toNat)) s
        else respondAny s) := rfl

theorem exec_start_of_not_idle {s : State} (h : s.state ≠ .idle) : exec .start s = .next s :=
  congrArg Host.Outcome.next (if_neg h)

theorem exec_clear_of_not_ended {s : State} (h : ¬(s.state = .done ∨ s.state = .error)) :
    exec .clear s = .next s :=
  congrArg Host.Outcome.next (if_neg h)

/-- `t` is `s` but for what the host alone sees: the events to come, its last answer, and the number of
the next free value. -/
def HostSideOnly (s t : State) : Prop :=
  t = { s with draws := t.draws, pending := t.pending, response := t.response }

/-- During a decode a host transaction changes nothing of the block (43_sequencer.md R129). -/
theorem exec_transaction_of_busy {i : Instr} {s : State} (h : (encode i).isTransaction = true)
    (hb : s.state = .busy) :
    ∃ t, exec i s = .next t ∧ HostSideOnly s t ∧ t.pending = s.pending := by
  cases transactionEffect_of_isTransaction h with
  | start => exact ⟨s, exec_start_of_not_idle (by simp [hb]), rfl, rfl⟩
  | clear => exact ⟨s, exec_clear_of_not_ended (by simp [hb]), rfl, rfl⟩
  | wrin a b => exact ⟨s, by simp [exec_wrin, hb], rfl, rfl⟩
  | rdout k => exact ⟨respondAny s, by simp [exec_rdout, hb], rfl, rfl⟩
  | inert he => exact ⟨s, he s, rfl, rfl⟩
  | configures f he => exact ⟨s, by simp [he, writeCfg, hb], rfl, rfl⟩
  | answers r he => exact ⟨respond (r s) s, he s, rfl, rfl⟩

/-! The transition table (43_sequencer.md R121). -/

/-- `STATE`, `ERR` and `PHASE`, the part of the state that the table speaks of. -/
def controlOf (s : State) : SeqState × ErrCode × Phase := (s.state, s.err, s.phase)

/-- A transaction that is no `START` and no `CLEAR` moves nothing of the control. -/
theorem exec_transaction_controlOf {i : Instr} (s : State) (h : (encode i).isTransaction = true)
    (hs : i ≠ .start) (hc : i ≠ .clear) : ∃ t, exec i s = .next t ∧ controlOf t = controlOf s := by
  cases transactionEffect_of_isTransaction h with
  | start => exact absurd rfl hs
  | clear => exact absurd rfl hc
  | wrin a b => refine ⟨_, exec_wrin a b s, ?_⟩; split_ifs <;> rfl
  | rdout k => refine ⟨_, exec_rdout k s, ?_⟩; split_ifs <;> rfl
  | inert he => exact ⟨s, he s, rfl⟩
  | configures f he => exact ⟨_, he s, by simp [controlOf]⟩
  | answers r he => exact ⟨_, he s, rfl⟩

/-- The rows of the table name `START`, `CHECK`, `RUN`, `CLEAR` and `RESET` alone. -/
theorem nextControl_of_no_row {i : Instr} (s : State) (hs : i ≠ .start) (hc : i ≠ .check)
    (hr : i ≠ .run) (hcl : i ≠ .clear) (hre : i ≠ .reset) : nextControl i s = controlOf s := by
  cases i with
  | start => exact absurd rfl hs
  | check => exact absurd rfl hc
  | run => exact absurd rfl hr
  | clear => exact absurd rfl hcl
  | reset => exact absurd rfl hre
  | _ => rfl

/-- An operation answers a next state whose control is the table's. -/
def FollowsTable (i : Instr) (s : State) : Prop :=
  ∃ t, exec i s = .next t ∧ controlOf t = nextControl i s

theorem start_followsTable (s : State) : FollowsTable .start s := by
  refine ⟨_, rfl, ?_⟩
  cases hs : s.state <;> simp [nextControl, controlOf, hs]

theorem clear_followsTable (s : State) : FollowsTable .clear s := by
  refine ⟨_, rfl, ?_⟩
  cases hs : s.state <;> simp [nextControl, controlOf, hs]

theorem reset_followsTable (s : State) : FollowsTable .reset s := ⟨_, rfl, rfl⟩

/-- Where the `CHECK` step is not selected, the table has no row for it. -/
theorem nextControl_check_of_not_inCheck {s : State} (h : ¬ InCheck s) :
    nextControl .check s = controlOf s := by
  match hs : s.state, hp : s.phase with
  | .busy, .check => exact absurd ⟨hs, hp⟩ h
  | .busy, .run | .idle, _ | .done, _ | .error, _ => simp [nextControl, controlOf, hs, hp]

/-- Where the `RUN` step is not selected, the table has no row for it. -/
theorem nextControl_run_of_not_inRun {s : State} (h : ¬ InRun s) :
    nextControl .run s = controlOf s := by
  match hs : s.state, hp : s.phase with
  | .busy, .run => exact absurd ⟨hs, hp⟩ h
  | .busy, .check | .idle, _ | .done, _ | .error, _ => simp [nextControl, controlOf, hs, hp]

theorem check_followsTable (s : State) : FollowsTable .check s := by
  by_cases hs : InCheck s
  · cases he : checkError s.params s.cfg with
    | none => exact ⟨_, exec_check_of_none hs he, by simp [nextControl, controlOf, hs.1, hs.2, he]⟩
    | some e => exact ⟨_, exec_check_of_error hs he, by simp [nextControl, controlOf, hs.1, hs.2, he]⟩
  · exact ⟨s, congrArg Host.Outcome.next (inCheck_of_not_selected hs),
      (nextControl_check_of_not_inCheck hs).symm⟩

theorem run_followsTable {s : State} (h : Inv s) : FollowsTable .run s := by
  by_cases hs : InRun s
  · have hr := h.run hs.1 hs.2
    refine ⟨_, exec_run_of_running hs hr, ?_⟩
    simp only [nextControl, controlOf, sampleTaken_state h.formed.params hr, sampleTaken_err,
      sampleTaken_phase, hs.1, hs.2, Cfg.n]
    split_ifs <;> rfl
  · exact ⟨s, inRun_of_not_selected hs, (nextControl_run_of_not_inRun hs).symm⟩

/-- Settles O47: each row of the table is its operation's, and no other event moves the control. -/
theorem transitionsAreTheTable : Obligations.TransitionsAreTheTable := by
  intro i s hinv hevent
  rcases hevent with htrans | rfl | rfl | rfl
  · by_cases hs : i = .start
    · exact hs ▸ start_followsTable s
    by_cases hc : i = .clear
    · exact hc ▸ clear_followsTable s
    obtain ⟨t, he, ht⟩ := exec_transaction_controlOf s htrans hs hc
    have hne {j : Instr} (hj : (encode j).isTransaction = false) : i ≠ j := fun heq => by
      rw [heq, hj] at htrans
      cases htrans
    exact ⟨t, he, ht.trans (nextControl_of_no_row s hs (hne rfl) (hne rfl) hc (hne rfl)).symm⟩
  · exact check_followsTable s
  · exact run_followsTable hinv
  · exact reset_followsTable s

end Sys2Proof.Machine

/-! A whole run (43_sequencer.md R128 to R131): the state between its events, one event, the induction
over the events, and that the end is `Decode`'s. -/

namespace Sys2Proof.Machine

open Sys2Proof.Safety

/-! The end of a run against `Decode`. -/

theorem grid_length (width height : Nat) (seq : List Nat) :
    (grid width height seq).length = height := by
  rw [grid, List.length_map, List.length_range]

theorem grid_row {r width height : Nat} (seq : List Nat) (h : r < height) :
    (grid width height seq)[r]? = some ((seq.drop (r * width)).take width) := by
  simp [grid, h]

/-- A cell inside the grid has an index below the number of cells. -/
theorem cell_index_lt {r col width height : Nat} (hr : r < height) (hc : col < width) :
    r * width + col < width * height := by
  calc r * width + col < (r + 1) * width := by rw [Nat.succ_mul]; omega
    _ ≤ height * width := Nat.mul_le_mul_right width hr
    _ = width * height := Nat.mul_comm _ _

/-- Row `r`, column `col` of the grid is element `r * width + col` (42_raster_assembler.md R113). -/
theorem grid_cell {r col width height : Nat} (seq : List Nat) (hr : r < height) (hc : col < width) :
    ((grid width height seq)[r]?.bind fun row => row[col]?) = seq[r * width + col]? := by
  rw [grid_row seq hr]
  simp [hc]

/-- A row of the grid of `width * height` samples holds `width` of them. -/
theorem grid_row_length {r width height : Nat} {seq row : List Nat}
    (hlen : seq.length = width * height) (h : (grid width height seq)[r]? = some row) :
    row.length = width := by
  have hr : r < height := by
    rw [← grid_length width height seq]
    exact (List.getElem?_eq_some_iff.mp h).1
  rw [grid_row seq hr, Option.some.injEq] at h
  have hle : (r + 1) * width ≤ height * width := Nat.mul_le_mul_right width hr
  rw [Nat.succ_mul, Nat.mul_comm height] at hle
  rw [← h, List.length_take, List.length_drop]
  omega

theorem endsAsDecode_of_error {s t : State} {e : ErrCode} (he : checkError s.params s.cfg = some e)
    (hcfg : t.cfg = s.cfg) (hin : inByte t = inByte s) (hstate : t.state = .error) (herr : t.err = e)
    (hout : outCell t = outCell s) : EndsAsDecode s t := by
  refine ⟨hcfg, congrFun hin, ?_⟩
  rw [decodeFrame, he]
  exact ⟨hstate, herr, congrFun hout⟩

/-- `OUT` filled with the sequence of a legal configuration is `Decode`'s grid. -/
theorem endsAsDecode_of_filled {s t : State} (hl : Legal s) (hcfg : t.cfg = s.cfg)
    (hin : inByte t = inByte s) (hstate : t.state = .done) (herr : t.err = .none)
    (hfill : Filled t s.cfg.n) (hout : ∀ i, s.cfg.n ≤ i → outCell t i = outCell s i) :
    EndsAsDecode s t := by
  obtain ⟨-, -, hns, -⟩ := legal_counts hl
  refine ⟨hcfg, congrFun hin, ?_⟩
  rw [decodeFrame, hl]
  refine ⟨hstate, herr, grid_length _ _ _,
    fun r row => grid_row_length ((normSeq_length _ _).trans hns), fun r col hr hc => ?_, hout⟩
  have hi : r * s.cfg.width.toNat + col < s.cfg.n := cell_index_lt hr hc
  rw [grid_cell _ hr hc, normSeq_get _ _ _ (hi.trans_eq hns.symm), hfill _ hi, hcfg, hin]

/-! The state between two events of a run. -/

/-- `t` is a state of the decode that `START` began in `s`: the inputs are as they were, the sequencer
stands where 10_state.md R39 says, and no cell from `OIDX` on has been written. -/
structure Decoding (s t : State) : Prop where
  params : t.params = s.params
  paramsWf : t.params.wf = true
  cfg : t.cfg = s.cfg
  input : inByte t = inByte s
  busy : t.state = .busy
  err : t.err = .none
  check : t.phase = .check → t.widx = 0 ∧ t.kidx = 0 ∧ t.oidx = 0
  run : t.phase = .run → Running t
  above : ∀ i, t.oidx.toNat ≤ i → outCell t i = outCell s i

theorem runLength_of_legal {s : State} (h : Legal s) : runLength s = 1 + s.cfg.n := if_pos h

theorem runLength_of_error {s : State} {e : ErrCode} (h : checkError s.params s.cfg = some e) :
    runLength s = 1 :=
  if_neg (by simp [h])

/-- How many decoder steps are left of a decode (43_sequencer.md R130). -/
def stepsLeft (t : State) : Nat :=
  match t.phase with
  | .check => runLength t
  | .run => t.cfg.n - t.oidx.toNat

theorem stepsLeft_of_check {t : State} (h : t.phase = .check) : stepsLeft t = runLength t := by
  rw [stepsLeft, h]

theorem stepsLeft_of_run {t : State} (h : t.phase = .run) :
    stepsLeft t = t.cfg.n - t.oidx.toNat := by
  rw [stepsLeft, h]

theorem stepsLeft_pos {s t : State} (h : Decoding s t) : 0 < stepsLeft t := by
  cases hp : t.phase with
  | check => rw [stepsLeft_of_check hp, runLength]; split_ifs <;> omega
  | run => rw [stepsLeft_of_run hp]; exact Nat.sub_pos_of_lt (h.run hp).oidx

/-- What the host alone sees does not belong to a run. -/
theorem running_of_hostSideOnly {t u : State} (hu : HostSideOnly t u) (h : Running t) : Running u := by
  unfold HostSideOnly at hu
  rw [hu]
  exact ⟨h.legal, h.position, h.oidx, h.kidx, h.widx, h.word, h.filled⟩

theorem decoding_of_hostSideOnly {s t u : State} (hu : HostSideOnly t u) (h : Decoding s t) :
    Decoding s u := by
  have hrun := fun hp => running_of_hostSideOnly hu (h.run hp)
  unfold HostSideOnly at hu
  rw [hu] at hrun ⊢
  exact ⟨h.params, h.paramsWf, h.cfg, h.input, h.busy, h.err, h.check, hrun, h.above⟩

theorem stepsLeft_of_hostSideOnly {t u : State} (hu : HostSideOnly t u) :
    stepsLeft u = stepsLeft t := by
  unfold HostSideOnly at hu
  rw [hu]
  rfl

/-! The decoder's steps of a run. -/

/-- A decoder step of a run: either it leaves a state of the run with one step fewer to go, or it was the
last and the end is `Decode`'s. -/
def DecodesOn (s t u : State) : Prop :=
  (Decoding s u ∧ stepsLeft u + 1 = stepsLeft t) ∨ (EndsAsDecode s u ∧ stepsLeft t = 1)

theorem decodesOn_check_failed {s t : State} {e : ErrCode} (h : Decoding s t) (hp : t.phase = .check)
    (he : checkError t.params t.cfg = some e) : DecodesOn s t (raise e t) := by
  have ho : t.oidx.toNat = 0 := by rw [(h.check hp).2.2]; rfl
  refine .inr ⟨endsAsDecode_of_error (h.params ▸ h.cfg ▸ he) h.cfg h.input rfl rfl ?_, ?_⟩
  · exact funext fun i => h.above i (ho.trans_le i.zero_le)
  · rw [stepsLeft_of_check hp, runLength_of_error he]

theorem decodesOn_check_passed {s t : State} (h : Decoding s t) (hp : t.phase = .check)
    (hl : Legal t) : DecodesOn s t { t with phase := .run } := by
  obtain ⟨hw, hk, ho⟩ := h.check hp
  refine .inl ⟨⟨h.params, h.paramsWf, h.cfg, h.input, h.busy, h.err, nofun,
    fun _ => running_of_check_passed hl hw hk ho, h.above⟩, ?_⟩
  rw [stepsLeft_of_run rfl, stepsLeft_of_check hp, runLength_of_legal hl, ho]
  exact Nat.add_comm _ _

theorem outCell_sampleTaken_above {s t : State} (h : Decoding s t) {i : Nat}
    (hi : t.oidx.toNat + 1 ≤ i) : outCell (sampleTaken t) i = outCell s i := by
  rw [outCell_sampleTaken, if_neg (by omega), h.above i (by omega)]

theorem endsAsDecode_of_last_sample {s t : State} (h : Decoding s t) (hr : Running t)
    (hlast : t.oidx.toNat + 1 = t.cfg.n) : EndsAsDecode s (sampleTaken t) := by
  have hstate := sampleTaken_state h.paramsWf hr
  rw [if_pos hlast] at hstate
  have hlegal := hr.legal
  rw [Legal, h.params, h.cfg] at hlegal
  rw [h.cfg] at hlast
  refine endsAsDecode_of_filled hlegal h.cfg ((inByte_sampleTaken t).trans h.input) hstate h.err ?_
    fun i hi => outCell_sampleTaken_above h (hlast.trans_le hi)
  rw [← hlast]
  exact filled_sampleTaken hr.filled

theorem decoding_of_more_samples {s t : State} (h : Decoding s t) (hp : t.phase = .run)
    (hmore : t.oidx.toNat + 1 < t.cfg.n) : Decoding s (sampleTaken t) where
  params := h.params
  paramsWf := h.paramsWf
  cfg := h.cfg
  input := (inByte_sampleTaken t).trans h.input
  busy := by rw [sampleTaken_state h.paramsWf (h.run hp), if_neg hmore.ne, h.busy]
  err := h.err
  check hc := by
    rw [sampleTaken_phase, hp] at hc
    cases hc
  run _ := running_sampleTaken h.paramsWf (h.run hp) hmore
  above i hi := by
    rw [sampleTaken_oidx, (advanceStage_of_running h.paramsWf (h.run hp)).1] at hi
    exact outCell_sampleTaken_above h hi

theorem decodesOn_run {s t : State} (h : Decoding s t) (hp : t.phase = .run) :
    DecodesOn s t (sampleTaken t) := by
  have hr := h.run hp
  have hlt := hr.oidx
  rw [DecodesOn, stepsLeft_of_run hp, stepsLeft_of_run (t := sampleTaken t) hp, sampleTaken_oidx,
    sampleTaken_cfg, (advanceStage_of_running h.paramsWf hr).1]
  by_cases hlast : t.oidx.toNat + 1 = t.cfg.n
  · exact .inr ⟨endsAsDecode_of_last_sample h hr hlast, by omega⟩
  · exact .inl ⟨decoding_of_more_samples h hp (by omega), by omega⟩

theorem step_of_inCheck {t : State} {rest : List Event} (h : InCheck t)
    (hp : t.pending = .step :: rest) : step t = exec .check { t with pending := rest } := by
  rw [step_step hp, (selOf_eq_checkSel t).mpr h]
  rfl

theorem step_of_inRun {t : State} {rest : List Event} (h : InRun t)
    (hp : t.pending = .step :: rest) : step t = exec .run { t with pending := rest } := by
  rw [step_step hp, (selOf_eq_runSel t).mpr h]
  rfl

/-- A decoder step taken in a state of a run. -/
theorem step_of_decoding {s t : State} {rest : List Event} (h : Decoding s t)
    (hp : t.pending = .step :: rest) :
    ∃ u, step t = .next u ∧ u.pending = rest ∧ DecodesOn s t u := by
  have hd : Decoding s { t with pending := rest } := decoding_of_hostSideOnly rfl h
  cases hphase : t.phase with
  | check =>
    have hc : InCheck { t with pending := rest } := ⟨h.busy, hphase⟩
    rw [step_of_inCheck (t := t) hc hp]
    cases he : checkError t.params t.cfg with
    | some e => exact ⟨_, exec_check_of_error hc he, rfl, decodesOn_check_failed hd hphase he⟩
    | none => exact ⟨_, exec_check_of_none hc he, rfl, decodesOn_check_passed hd hphase he⟩
  | run =>
    have hr : InRun { t with pending := rest } := ⟨h.busy, hphase⟩
    rw [step_of_inRun (t := t) hr hp]
    exact ⟨_, exec_run_of_running hr (hd.run hphase), rfl, decodesOn_run hd hphase⟩

/-! The host's transactions of a run. -/

/-- A write to `CMD` is a transaction, whatever the command. -/
theorem isTransaction_encode_decodeCommand (v : Reg32) :
    (encode (decodeCommand v)).isTransaction = true := by
  unfold decodeCommand
  split <;> rfl

/-- A register write is a transaction at every offset on the grid of 4, and no operation off it
(30_encoding.md R77). -/
theorem decodeRegw_isTransaction (o : Offset) (v : Reg32) :
    (∃ i, decodeRegw o v = .ok i ∧ (encode i).isTransaction = true) ∨
      decodeRegw o v = .error .notAnAddress := by
  unfold decodeRegw
  split
  case h_1 => exact .inl ⟨_, rfl, isTransaction_encode_decodeCommand v⟩
  case h_10 => split_ifs; exacts [.inl ⟨_, rfl, rfl⟩, .inr rfl]
  all_goals exact .inl ⟨_, rfl, rfl⟩

/-- A register read is a transaction at every offset on the grid of 4, and no operation off it
(30_encoding.md R78). -/
theorem decodeRegr_isTransaction (o : Offset) :
    (∃ i, decodeRegr o = .ok i ∧ (encode i).isTransaction = true) ∨
      decodeRegr o = .error .notAnAddress := by
  unfold decodeRegr
  split
  case h_10 => split_ifs; exacts [.inl ⟨_, rfl, rfl⟩, .inr rfl]
  all_goals exact .inl ⟨_, rfl, rfl⟩

/-- A word of a host transaction decodes to a transaction, or is at no address of the block. -/
theorem decode_of_isTransaction {w : Encoded} (h : w.isTransaction = true) :
    (∃ i, decode w = .ok i ∧ (encode i).isTransaction = true) ∨ decode w = .error .notAnAddress := by
  cases w with
  | regw o v => exact decodeRegw_isTransaction o v
  | regr o => exact decodeRegr_isTransaction o
  | inw a v => exact .inl ⟨_, rfl, rfl⟩
  | outr k => exact .inl ⟨_, rfl, rfl⟩
  | reset | seq _ | packedWord _ | normSample _ => cases h

/-- A host transaction in a state of a run is ignored but for its answer (43_sequencer.md R129). -/
theorem step_of_transaction_of_busy {t : State} {w : Encoded} {rest : List Event}
    (hb : t.state = .busy) (hw : w.isTransaction = true) (hp : t.pending = .bus w :: rest) :
    ∃ u, step t = .next u ∧ u.pending = rest ∧ HostSideOnly t u := by
  rw [step_bus hp]
  rcases decode_of_isTransaction hw with ⟨i, hi, htrans⟩ | herr
  · obtain ⟨u, he, hu, hrest⟩ := exec_transaction_of_busy (s := { t with pending := rest }) htrans hb
    rw [hi]
    exact ⟨u, he, hrest, hu⟩
  · rw [herr]
    exact ⟨_, rfl, rfl, rfl⟩

/-! The whole run. -/

theorem decoding_of_start {s : State} {rest : List Event} (hinv : Inv s) (hs : s.state = .idle) :
    Decoding s { s with
      pending := rest, state := .busy, phase := .check, widx := 0, kidx := 0, oidx := 0 } where
  params := rfl
  paramsWf := hinv.formed.params
  cfg := rfl
  input := rfl
  busy := rfl
  err := by
    by_contra he
    have := hinv.err.mp he
    rw [hs] at this
    cases this
  check _ := ⟨rfl, rfl, rfl⟩
  run := nofun
  above _ _ := rfl

/-- `START` taken in `IDLE` leaves the first state of a run, with all its decoder steps to go. -/
theorem step_of_start {s : State} {rest : List Event} (hinv : Inv s) (hs : s.state = .idle)
    (hp : s.pending = hostStart :: rest) :
    ∃ t, step s = .next t ∧ t.pending = rest ∧ Decoding s t ∧ stepsLeft t = runLength s := by
  refine ⟨_, ?_, rfl, decoding_of_start (rest := rest) hinv hs, rfl⟩
  rw [step_bus hp]
  exact congrArg Host.Outcome.next (if_pos hs)

/-- A run with its decoder steps and any transactions before the last of them ends as `Decode`. -/
theorem run_of_decoding {s t : State} {es : List Event} (h : Decoding s t)
    (hes : ∀ e ∈ es, e = .step ∨ e.isTransaction = true)
    (hcount : es.count .step + 1 = stepsLeft t) (hp : t.pending = es ++ [.step]) :
    ∃ u, Host.Core.run core (es.length + 1) t = .next u ∧ EndsAsDecode s u := by
  induction es generalizing t with
  | nil =>
    obtain ⟨u, hstep, -, ⟨hd, hleft⟩ | ⟨hend, -⟩⟩ := step_of_decoding h hp
    · have := stepsLeft_pos hd
      rw [List.count_nil] at hcount
      omega
    · exact ⟨u, run_succ 0 hstep, hend⟩
  | cons e es ih =>
    obtain ⟨he, hrest⟩ := List.forall_mem_cons.mp hes
    cases e with
    | step =>
      rw [List.count_cons_self] at hcount
      obtain ⟨u, hstep, hpu, ⟨hd, hleft⟩ | ⟨-, hone⟩⟩ := step_of_decoding h hp
      · rw [List.length_cons, run_succ _ hstep]
        exact ih hd hrest (by omega) hpu
      · omega
    | bus w =>
      have hw : w.isTransaction = true := he.resolve_left nofun
      rw [List.count_cons_of_ne Event.noConfusion] at hcount
      obtain ⟨u, hstep, hpu, hu⟩ := step_of_transaction_of_busy h.busy hw hp
      rw [List.length_cons, run_succ _ hstep]
      exact ih (decoding_of_hostSideOnly hu h) hrest
        (hcount.trans (stepsLeft_of_hostSideOnly hu).symm) hpu

/-- Settles O53: by induction on the events, each of which leaves a state of the run or ends it. -/
theorem theMachineComputesDecode : Obligations.TheMachineComputesDecode := by
  intro s es hinv hs hes hcount hp
  obtain ⟨t, hstep, hpt, hd, hleft⟩ := step_of_start hinv hs hp
  rw [run_succ (es.length + 1) hstep]
  exact run_of_decoding hd hes (hcount.trans hleft.symm) hpt

/-! The end of a run as a function of its inputs. -/

theorem control_of_endsAsDecode_error {s t : State} {e : ErrCode} (h : EndsAsDecode s t)
    (he : decodeFrame s.params s.cfg (inByte s) = .error e) : t.state = .error ∧ t.err = e := by
  obtain ⟨-, -, hend⟩ := h
  rw [he] at hend
  exact ⟨hend.1, hend.2.1⟩

theorem control_of_endsAsDecode_ok {s t : State} {g : List (List Nat)} (h : EndsAsDecode s t)
    (hg : decodeFrame s.params s.cfg (inByte s) = .ok g) : t.state = .done ∧ t.err = .none := by
  obtain ⟨-, -, hend⟩ := h
  rw [hg] at hend
  exact ⟨hend.1, hend.2.1⟩

/-- Each cell below `N` is the element of `Decode`'s grid in its row and column. -/
theorem cell_of_endsAsDecode_ok {s t : State} {g : List (List Nat)} {i : Nat} (h : EndsAsDecode s t)
    (hg : decodeFrame s.params s.cfg (inByte s) = .ok g) (hi : i < s.cfg.n) :
    (g[s.cfg.rowOf i]?.bind fun row => row[s.cfg.colOf i]?) = some (outCell t i) := by
  obtain ⟨-, -, hend⟩ := h
  rw [hg] at hend
  obtain ⟨-, -, -, -, hcells, -⟩ := hend
  have hwidth : 0 < s.cfg.width.toNat := Nat.pos_of_mul_pos_right (Nat.zero_lt_of_lt hi)
  rw [Cfg.rowOf, Cfg.colOf, hcells _ _ (Nat.div_lt_of_lt_mul hi) (Nat.mod_lt _ hwidth),
    Nat.div_add_mod']

/-- Settles O54: both runs end as `Decode`, which sees the buffer through its samples alone. -/
theorem outcomeDependsOnConfigurationAndBufferAlone :
    Obligations.OutcomeDependsOnConfigurationAndBufferAlone := by
  intro s s' es es' hinv hinv' hs hs' hparams hcfg hwords hes hes' hcount hcount' hp hp'
  obtain ⟨t, hrun, hend⟩ := theMachineComputesDecode s es hinv hs hes hcount hp
  obtain ⟨t', hrun', hend'⟩ := theMachineComputesDecode s' es' hinv' hs' hes' hcount' hp'
  refine ⟨t, t', hrun, hrun', ?_⟩
  have hframe : decodeFrame s'.params s'.cfg (inByte s') = decodeFrame s.params s.cfg (inByte s) := by
    rw [← hparams, ← hcfg]
    exact (decodeFrame_congr_of_rawSeq _ (rawSeq_congr_of_sample_bits hwords)).symm
  cases hg : decodeFrame s.params s.cfg (inByte s) with
  | error e =>
    obtain ⟨hstate, herr⟩ := control_of_endsAsDecode_error hend hg
    obtain ⟨hstate', herr'⟩ := control_of_endsAsDecode_error hend' (hframe.trans hg)
    refine ⟨hstate.trans hstate'.symm, herr.trans herr'.symm, fun hdone => ?_⟩
    rw [hstate] at hdone
    cases hdone
  | ok g =>
    obtain ⟨hstate, herr⟩ := control_of_endsAsDecode_ok hend hg
    obtain ⟨hstate', herr'⟩ := control_of_endsAsDecode_ok hend' (hframe.trans hg)
    refine ⟨hstate.trans hstate'.symm, herr.trans herr'.symm, fun _ i hi => ?_⟩
    have hcell := cell_of_endsAsDecode_ok hend hg hi
    have hcell' := cell_of_endsAsDecode_ok hend' (hframe.trans hg) (hcfg ▸ hi)
    rw [← hcfg, hcell] at hcell'
    exact Option.some.inj hcell'

end Sys2Proof.Machine

/-! The host's commands and register transactions (44_host_interface.md sections 2 and 3): how their
words decode, and what each does where it is accepted and where it is ignored. -/

namespace Sys2Proof.Machine

open Sys2Proof.Safety

/-! Their words. -/

theorem decodeCommand_of_reserved {v : Reg32} (h0 : v.toNat ≠ 0) (h1 : v.toNat ≠ 1)
    (h2 : v.toNat ≠ 2) : decodeCommand v = .cmdReserved v := by
  unfold decodeCommand
  split
  case h_4 => rfl
  all_goals contradiction

/-- A reserved offset lies above the nine registers of the map (20_memory.md R56, R57). -/
theorem decodeRegr_of_reserved {o : Offset} (ho : 0x24 ≤ o.toNat) (h4 : o.toNat % 4 = 0) :
    decodeRegr o = .ok (.regrReserved o) := by
  unfold decodeRegr
  split
  case h_10 => exact if_pos h4
  all_goals omega

/-! `NOP` and the reserved commands. -/

/-- Settles O13: neither operation touches the state, and a value that is no command is reserved. -/
theorem nopAndReservedCommandsChangeNothing : Obligations.NopAndReservedCommandsChangeNothing :=
  fun _ _ => ⟨rfl, rfl, fun h0 h1 h2 => congrArg Except.ok (decodeCommand_of_reserved h0 h1 h2), rfl⟩

/-! Register writes. -/

theorem writeCfg_of_idle {s : State} (f : Cfg → Cfg) (h : s.state = .idle) :
    writeCfg f s = { s with cfg := f s.cfg } := if_pos h

theorem writeCfg_of_not_idle {s : State} (f : Cfg → Cfg) (h : s.state ≠ .idle) : writeCfg f s = s :=
  if_neg h

/-- What every `WRREG` shares: an operation that is a configuration write is gated by `IDLE`. -/
theorem storesOnlyInIdle_of_writeCfg {i : Instr} {f : Cfg → Cfg}
    (h : ∀ s, exec i s = .next (writeCfg f s)) : StoresOnlyInIdle i f := fun s =>
  ⟨fun hs => by rw [h, writeCfg_of_idle f hs], fun hs => by rw [h, writeCfg_of_not_idle f hs]⟩

/-- Settles O14: each of the seven is a configuration write of its own field, and the writes to
`STATUS` and at a reserved offset touch nothing. -/
theorem configurationWritesTakeEffectOnlyInIdle : Obligations.ConfigurationWritesTakeEffectOnlyInIdle :=
  fun _ =>
    ⟨⟨storesOnlyInIdle_of_writeCfg fun _ => rfl, rfl⟩,
      ⟨storesOnlyInIdle_of_writeCfg fun _ => rfl, rfl⟩,
      ⟨storesOnlyInIdle_of_writeCfg fun _ => rfl, rfl⟩,
      ⟨storesOnlyInIdle_of_writeCfg fun _ => rfl, rfl⟩,
      ⟨storesOnlyInIdle_of_writeCfg fun _ => rfl, rfl⟩,
      ⟨storesOnlyInIdle_of_writeCfg fun _ => rfl, rfl⟩,
      ⟨storesOnlyInIdle_of_writeCfg fun _ => rfl, rfl⟩,
      fun _ => ⟨rfl, fun _ => rfl⟩⟩

/-! Register reads. -/

/-- `STATUS` as a number: `ERR` in bits 3:2, `STATE` in bits 1:0 (10_state.md R29). -/
theorem statusWord_toNat (s : State) :
    (statusWord s).toNat = 4 * s.err.code.toNat + s.state.code.toNat := by
  unfold statusWord
  cases s.err <;> cases s.state <;> rfl

/-- Outside `ERROR` there is no error (10_state.md R39, item 1). -/
theorem err_eq_none_of_inv {s : State} (h : Inv s) (hs : s.state ≠ .error) : s.err = .none :=
  not_not.mp (mt h.err.mp hs)

/-- Without an error `STATUS` is the code of `IDLE`, `BUSY` or `DONE`; in `ERROR` it carries one of the
three errors (10_state.md R39, item 1). -/
theorem statusWord_mem_of_inv {s : State} (h : Inv s) :
    (statusWord s).toNat ∈ [0x0, 0x1, 0x2, 0x7, 0xB, 0xF] := by
  rw [statusWord_toNat]
  cases hs : s.state with
  | error =>
    cases he : s.err with
    | none => exact absurd he (h.err.mpr hs)
    | malformedInput | dimensionMismatch | badConfig => decide
  | idle | busy | done =>
    rw [err_eq_none_of_inv h (by simp [hs])]
    decide

/-- Settles O15: each read answers its own register, and `STATUS` is two codes that the invariant
ties. -/
theorem registerReadsAnswerTheRegister : Obligations.RegisterReadsAnswerTheRegister := by
  refine ⟨⟨rfl, fun _ => rfl⟩, rfl, ⟨rfl, fun _ => rfl⟩, ⟨rfl, fun _ => rfl⟩, ⟨rfl, fun _ => rfl⟩,
    ⟨rfl, fun _ => rfl⟩, ⟨rfl, fun _ => rfl⟩, ⟨rfl, fun _ => rfl⟩, ⟨rfl, fun _ => rfl⟩,
    fun o ho h4 => ⟨decodeRegr_of_reserved ho h4, fun _ => rfl⟩,
    fun s => ⟨statusWord s, rfl, ?_, statusWord_mem_of_inv⟩⟩
  rw [statusWord_toNat]
  cases s.err <;> cases s.state <;> rfl

/-! `START` and `CLEAR`. -/

theorem exec_start_of_idle {s : State} (h : s.state = .idle) : exec .start s =
    .next { s with state := .busy, phase := .check, widx := 0, kidx := 0, oidx := 0 } :=
  congrArg Host.Outcome.next (if_pos h)

theorem exec_clear_of_ended {s : State} (h : s.state = .done ∨ s.state = .error) :
    exec .clear s = .next (acknowledge s) :=
  congrArg Host.Outcome.next (if_pos h)

/-- Settles O16: `IDLE` alone lets `START` through, and it is a state without an error. -/
theorem startBeginsADecodeFromIdle : Obligations.StartBeginsADecodeFromIdle :=
  ⟨rfl, fun _ => ⟨exec_start_of_idle, exec_start_of_not_idle,
    fun hinv hs => err_eq_none_of_inv hinv (by simp [hs])⟩⟩

/-- Settles O17: the end of a decode is acknowledged, and there is none in `IDLE` and `BUSY`. -/
theorem clearReturnsToIdle : Obligations.ClearReturnsToIdle := by
  refine ⟨rfl, fun s => ⟨exec_clear_of_ended, fun hs => exec_clear_of_not_ended ?_⟩⟩
  rcases hs with hs | hs <;> simp [hs]

end Sys2Proof.Machine

/-! Errors (60_exceptions.md R167): the operations of the decoder where they are not selected, and the
return from `ERROR`. -/

namespace Sys2Proof.Machine

open Sys2Proof.Safety

/-- An operation of the `CHECK` step, where that step is not selected (30_encoding.md R80). -/
theorem exec_of_not_inCheck {i : Instr} {s : State} (hi : i.wholeStep = .check) (h : ¬ InCheck s) :
    exec i s = .next s := by
  cases i with
  | check | cfgchk | lenchk | dimchk => exact congrArg Host.Outcome.next (inCheck_of_not_selected h)
  | _ => cases hi

/-- An operation of the `RUN` step, where that step is not selected (30_encoding.md R80). -/
theorem exec_of_not_inRun {i : Instr} {s : State} (hi : i.wholeStep = .run) (h : ¬ InRun s) :
    exec i s = .next s := by
  cases i with
  | run | fetchw | extract | zext | bitrev | store | advance | finish =>
    exact if_neg (mt (selOf_eq_runSel s).mp h)
  | _ => cases hi

/-- Every operation is a host transaction, `RESET`, an operation of one of the two steps, or a data
format, which has no next state. -/
theorem kind_of_exec_eq_next {i : Instr} {s t : State} (h : exec i s = .next t) :
    (encode i).isTransaction = true ∨ i = .reset ∨ i.wholeStep = .check ∨ i.wholeStep = .run := by
  cases i with
  | reset => exact .inr (.inl rfl)
  | check | cfgchk | lenchk | dimchk => exact .inr (.inr (.inl rfl))
  | run | fetchw | extract | zext | bitrev | store | advance | finish => exact .inr (.inr (.inr rfl))
  | packedwordDefault _ _ _ _ | normsampleDefault _ => cases h
  | _ => exact .inl rfl

/-- Outside `IDLE` a transaction that is no `CLEAR` moves nothing of the control. -/
theorem exec_transaction_controlOf_of_not_idle {i : Instr} {s : State}
    (h : (encode i).isTransaction = true) (hs : s.state ≠ .idle) (hc : i ≠ .clear) :
    ∃ t, exec i s = .next t ∧ controlOf t = controlOf s := by
  by_cases hi : i = .start
  · exact ⟨s, hi ▸ exec_start_of_not_idle hs, rfl⟩
  · exact exec_transaction_controlOf s h hi hc

/-- In `ERROR` no decoder step is selected and `START` is ignored, so `CLEAR` and `RESET` alone move the
control. -/
theorem controlOf_of_exec_of_error {i : Instr} {s t : State} (hs : s.state = .error)
    (hc : i ≠ .clear) (hr : i ≠ .reset) (h : exec i s = .next t) : controlOf t = controlOf s := by
  have hidle : s.state ≠ .idle := by simp [hs]
  have hbusy : s.state ≠ .busy := by simp [hs]
  suffices hnext : ∃ u, exec i s = .next u ∧ controlOf u = controlOf s by
    obtain ⟨u, hu, hcontrol⟩ := hnext
    rw [Host.Outcome.next.inj (h.symm.trans hu), hcontrol]
  rcases kind_of_exec_eq_next h with htrans | hreset | hcheck | hrun
  · exact exec_transaction_controlOf_of_not_idle htrans hidle hc
  · exact absurd hreset hr
  · exact ⟨s, exec_of_not_inCheck hcheck fun hsel => hbusy hsel.1, rfl⟩
  · exact ⟨s, exec_of_not_inRun hrun fun hsel => hbusy hsel.1, rfl⟩

/-- Settles O51: the control stays but for `CLEAR`, which is the acknowledgement of the error, and
`RESET`, which ends at the reset values. -/
theorem errorsStayUntilClearOrReset : Obligations.ErrorsStayUntilClearOrReset := by
  intro i s t hs h
  refine ⟨fun hc hr => ?_, ?_, ?_⟩
  · have hcontrol := controlOf_of_exec_of_error hs hc hr h
    exact ⟨(congrArg (·.1) hcontrol).trans hs, congrArg (·.2.1) hcontrol⟩
  · rintro rfl
    exact Host.Outcome.next.inj (h.symm.trans (exec_clear_of_ended (.inr hs)))
  · rintro rfl
    obtain rfl : resetState s = t := Host.Outcome.next.inj h
    exact ⟨rfl, rfl⟩

end Sys2Proof.Machine

/-! The decoder and the encoder (30_encoding.md R72, R75, R77 to R80): the offsets of the register map,
the two directions of the round trip, the table's first matching row, and the default sample format. -/

namespace Sys2Proof.Machine

/-! Offsets (20_memory.md R56, R57). -/

/-- The offsets on the grid of 4 are the nine registers of the map and the reserved ones. -/
theorem mapped_or_reserved {o : Offset} (h : o.toNat % 4 = 0) :
    o ∈ [0x00#8, 0x04#8, 0x08#8, 0x0C#8, 0x10#8, 0x14#8, 0x18#8, 0x1C#8, 0x20#8] ∨
      0x24 ≤ o.toNat := by
  simp only [List.mem_cons, List.not_mem_nil, or_false, ← BitVec.toNat_inj, BitVec.toNat_ofNat]
  omega

theorem isReserved_iff (o : Offset) :
    Offset.isReserved o = true ↔ 0x24 ≤ o.toNat ∧ o.toNat % 4 = 0 := by
  simp [Offset.isReserved]

theorem decodeRegw_of_reserved {o : Offset} (v : Reg32) (ho : 0x24 ≤ o.toNat)
    (h4 : o.toNat % 4 = 0) : decodeRegw o v = .ok (.regwReserved o v) := by
  unfold decodeRegw
  split
  case h_10 => exact if_pos h4
  all_goals omega

theorem decodeRegw_of_off_grid {o : Offset} (v : Reg32) (h : o.toNat % 4 ≠ 0) :
    decodeRegw o v = .error .notAnAddress := by
  unfold decodeRegw
  split
  case h_10 => exact if_neg h
  all_goals omega

theorem decodeRegr_of_off_grid {o : Offset} (h : o.toNat % 4 ≠ 0) :
    decodeRegr o = .error .notAnAddress := by
  unfold decodeRegr
  split
  case h_10 => exact if_neg h
  all_goals omega

/-! Decode after encode. -/

/-- The fields of a packed word come apart where they were put together (30_encoding.md R72). -/
theorem decode_encode_packedwordDefault (pad : BitVec 2) (c b a : BitVec 10) :
    decode (encode (.packedwordDefault pad c b a)) = .ok (.packedwordDefault pad c b a) := by
  refine (decode_packedWord_eq_ok_iff _ pad c b a).mpr ⟨?_, ?_, ?_, ?_⟩
  · rw [BitVec.extractLsb'_append_eq_of_le (by decide), BitVec.extractLsb'_append_eq_of_le (by decide),
      BitVec.extractLsb'_append_eq_of_le (by decide), BitVec.extractLsb'_eq_self]
  · rw [BitVec.extractLsb'_append_eq_of_le (by decide), BitVec.extractLsb'_append_eq_of_le (by decide),
      BitVec.extractLsb'_append_eq_of_add_le (by decide), BitVec.extractLsb'_eq_self]
  · rw [BitVec.extractLsb'_append_eq_of_le (by decide),
      BitVec.extractLsb'_append_eq_of_add_le (by decide), BitVec.extractLsb'_eq_self]
  · rw [BitVec.extractLsb'_append_eq_of_add_le (by decide), BitVec.extractLsb'_eq_self]

/-- A sample's format has its low six bits 0, and its high ten are the raw bits mirrored
(30_encoding.md R75). -/
theorem decode_encode_normsampleDefault (raw : BitVec 10) :
    decode (encode (.normsampleDefault raw)) = .ok (.normsampleDefault raw) := by
  have hlow : (raw.reverse ++ 0#6).extractLsb' 0 6 = 0#6 := by
    rw [BitVec.extractLsb'_append_eq_of_add_le (by decide), BitVec.extractLsb'_eq_self]
  have hhigh : (raw.reverse ++ 0#6).extractLsb' 6 10 = raw.reverse := by
    rw [BitVec.extractLsb'_append_eq_of_le (by decide), BitVec.extractLsb'_eq_self]
  rw [encode, decode, decodeNormSample, if_pos hlow, hhigh, BitVec.reverse_reverse_eq]

/-- Settles O1: the reserved rows decode by the condition of `wf`, the data formats field by field, and
every other word is written out. -/
theorem decodeOfEncodeIsTheInstruction : Obligations.DecodeOfEncodeIsTheInstruction := by
  intro i hwf
  cases i with
  | cmdReserved v =>
    obtain ⟨h0, h1, h2⟩ := of_decide_eq_true hwf
    exact congrArg Except.ok (decodeCommand_of_reserved h0 h1 h2)
  | regwReserved o v =>
    obtain ⟨ho, h4⟩ := (isReserved_iff o).mp hwf
    exact decodeRegw_of_reserved v ho h4
  | regrReserved o =>
    obtain ⟨ho, h4⟩ := (isReserved_iff o).mp hwf
    exact decodeRegr_of_reserved ho h4
  | packedwordDefault pad c b a => exact decode_encode_packedwordDefault pad c b a
  | normsampleDefault raw => exact decode_encode_normsampleDefault raw
  | _ => rfl

/-! Encode after decode. -/

/-- `e` is the word of `i`, which is well-formed. -/
def EncodesTo (e : Encoded) (i : Instr) : Prop := encode i = e ∧ i.wf = true

theorem encodesTo_decodeCommand (v : Reg32) : EncodesTo (.regw 0x00 v) (decodeCommand v) := by
  unfold decodeCommand
  split
  case h_1 hv | h_2 hv | h_3 hv =>
    refine ⟨congrArg _ (BitVec.eq_of_toNat_eq ?_), rfl⟩
    exact hv.symm
  case h_4 h0 h1 h2 => exact ⟨rfl, decide_eq_true ⟨h0, h1, h2⟩⟩

theorem encodesTo_of_decodeRegw {o : Offset} {v : Reg32} {i : Instr} (h : decodeRegw o v = .ok i) :
    EncodesTo (.regw o v) i := by
  by_cases h4 : o.toNat % 4 = 0
  · rcases mapped_or_reserved h4 with hmapped | ho
    · fin_cases hmapped <;> obtain rfl := Except.ok.inj h
      · exact encodesTo_decodeCommand v
      all_goals exact ⟨rfl, rfl⟩
    · obtain rfl := Except.ok.inj ((decodeRegw_of_reserved v ho h4).symm.trans h)
      exact ⟨rfl, (isReserved_iff o).mpr ⟨ho, h4⟩⟩
  · rw [decodeRegw_of_off_grid v h4] at h
    cases h

theorem encodesTo_of_decodeRegr {o : Offset} {i : Instr} (h : decodeRegr o = .ok i) :
    EncodesTo (.regr o) i := by
  by_cases h4 : o.toNat % 4 = 0
  · rcases mapped_or_reserved h4 with hmapped | ho
    · fin_cases hmapped <;> obtain rfl := Except.ok.inj h <;> exact ⟨rfl, rfl⟩
    · obtain rfl := Except.ok.inj ((decodeRegr_of_reserved ho h4).symm.trans h)
      exact ⟨rfl, (isReserved_iff o).mpr ⟨ho, h4⟩⟩
  · rw [decodeRegr_of_off_grid h4] at h
    cases h

theorem encodesTo_of_decodeSeq {sel : BitVec 3} {i : Instr} (h : decodeSeq sel = .ok i) :
    EncodesTo (.seq sel) i := by
  unfold decodeSeq at h
  split_ifs at h with hcheck hrun
  · obtain rfl := Except.ok.inj h
    exact ⟨congrArg _ hcheck.symm, rfl⟩
  · obtain rfl := Except.ok.inj h
    exact ⟨congrArg _ hrun.symm, rfl⟩

/-- Fields that lie end to end in a word make the word again. -/
theorem encodesTo_decodePackedWord (w : BitVec 32) :
    EncodesTo (.packedWord w) (decodePackedWord w) := by
  refine ⟨(encode_packedwordDefault_eq_iff _ _ _ _ w).mpr ?_, rfl⟩
  rw [BitVec.extractLsb'_append_extractLsb'_eq_extractLsb' (by decide),
    BitVec.extractLsb'_append_extractLsb'_eq_extractLsb' (by decide),
    BitVec.extractLsb'_append_extractLsb'_eq_extractLsb' (by decide), BitVec.extractLsb'_eq_self]

theorem encodesTo_of_decodeNormSample {v : BitVec 16} {i : Instr} (h : decodeNormSample v = .ok i) :
    EncodesTo (.normSample v) i := by
  unfold decodeNormSample at h
  split_ifs at h with hlow
  obtain rfl := Except.ok.inj h
  refine ⟨?_, rfl⟩
  rw [encode, BitVec.reverse_reverse_eq, ← hlow,
    BitVec.extractLsb'_append_extractLsb'_eq_extractLsb' (by decide), BitVec.extractLsb'_eq_self]

/-- Settles O2: each format's decoder names an instruction with that word, and only whole steps. -/
theorem encodeOfDecodeIsTheWord : Obligations.EncodeOfDecodeIsTheWord := by
  intro e i h
  suffices henc : EncodesTo e i from ⟨henc.1, henc.2, wholeStep_of_decode h⟩
  cases e with
  | regw o v => exact encodesTo_of_decodeRegw h
  | regr o => exact encodesTo_of_decodeRegr h
  | seq sel => exact encodesTo_of_decodeSeq h
  | normSample v => exact encodesTo_of_decodeNormSample h
  | packedWord w => exact Except.ok.inj h ▸ encodesTo_decodePackedWord w
  | inw _ _ | outr _ | reset => exact Except.ok.inj h ▸ ⟨rfl, rfl⟩

/-! The table's rows (30_encoding.md R77, R78). -/

theorem lookupRow_cons (r : TableRow) (rows : List TableRow) (value : Nat) :
    lookupRow (r :: rows) value =
      if value &&& r.mask = r.pattern then some r.mnemonic else lookupRow rows value := by
  by_cases h : value &&& r.mask = r.pattern <;> simp [lookupRow, h]

/-- A row with every bit of `{offset, wdata}` in its mask fits one offset and one write data. -/
theorem regw_whole_row_fits_iff (o : Offset) (v : Reg32) (pattern : Nat) :
    (o.toNat * 2 ^ 32 + v.toNat) &&& 0xFFFFFFFFFF = pattern ↔
      o.toNat = pattern / 2 ^ 32 ∧ v.toNat = pattern % 2 ^ 32 := by
  have hlt : o.toNat * 2 ^ 32 + v.toNat < 2 ^ 40 := by omega
  have hmask := (Nat.and_two_pow_sub_one_eq_mod _ 40).trans (Nat.mod_eq_of_lt hlt)
  rw [show 0xFFFFFFFFFF = 2 ^ 40 - 1 by rfl, hmask]
  omega

/-- The mask over the high 8 of 40 bits keeps the offset and clears the write data. -/
theorem regw_value_and_offset_mask (o : Offset) (v : Reg32) :
    (o.toNat * 2 ^ 32 + v.toNat) &&& 0xFF00000000 = o.toNat * 2 ^ 32 := by
  have hhigh : ((o.toNat * 2 ^ 32 + v.toNat) &&& 0xFF00000000) / 2 ^ 32 = o.toNat := by
    rw [Nat.and_div_two_pow, show (o.toNat * 2 ^ 32 + v.toNat) / 2 ^ 32 = o.toNat by omega]
    exact (Nat.and_two_pow_sub_one_eq_mod _ 8).trans (Nat.mod_eq_of_lt o.isLt)
  have hlow : ((o.toNat * 2 ^ 32 + v.toNat) &&& 0xFF00000000) % 2 ^ 32 = 0 := by
    rw [Nat.and_mod_two_pow]
    exact Nat.and_zero _
  rw [← Nat.div_add_mod' (_ &&& _) (2 ^ 32), hhigh, hlow, Nat.add_zero]

/-- A row with the bits of `offset` alone in its mask fits one offset. -/
theorem regw_offset_row_fits_iff (o : Offset) (v : Reg32) (pattern : Nat) :
    (o.toNat * 2 ^ 32 + v.toNat) &&& 0xFF00000000 = pattern ↔
      o.toNat = pattern / 2 ^ 32 ∧ 0 = pattern % 2 ^ 32 := by
  rw [regw_value_and_offset_mask]
  omega

/-- The mask over the 8 bits of an offset keeps it. -/
theorem offset_and_mask (o : Offset) : o.toNat &&& 0xFF = o.toNat :=
  (Nat.and_two_pow_sub_one_eq_mod _ 8).trans (Nat.mod_eq_of_lt o.isLt)

/-- At offset 0 the command picks the row. -/
theorem lookupRow_regwTable_of_command {o : Offset} (v : Reg32) (ho : o.toNat = 0) :
    lookupRow regwTable (o.toNat * 2 ^ 32 + v.toNat) = some (decodeCommand v).mnemonic := by
  unfold decodeCommand
  split
  all_goals
    simp only [regwTable, lookupRow_cons, regw_whole_row_fits_iff, regw_offset_row_fits_iff,
      imp_false] at *
    simp [*, Instr.mnemonic]

/-- A register write decodes to the first `REGW` row that fits it: the rows before its own ask for another
offset or another command. -/
theorem decodeRegw_is_first_row {o : Offset} (v : Reg32) (h4 : o.toNat % 4 = 0) :
    ∃ i, decodeRegw o v = .ok i ∧
      lookupRow regwTable (o.toNat * 2 ^ 32 + v.toNat) = some i.mnemonic := by
  unfold decodeRegw
  split
  case h_1 ho => exact ⟨_, rfl, lookupRow_regwTable_of_command v ho⟩
  all_goals
    simp only [regwTable, lookupRow_cons, regw_whole_row_fits_iff, regw_offset_row_fits_iff,
      imp_false] at *
    simp [*, Instr.mnemonic]

/-- A register read decodes to the first `REGR` row that fits its offset. -/
theorem decodeRegr_is_first_row {o : Offset} (h4 : o.toNat % 4 = 0) :
    ∃ i, decodeRegr o = .ok i ∧ lookupRow regrTable o.toNat = some i.mnemonic := by
  unfold decodeRegr
  split
  all_goals
    simp only [regrTable, lookupRow_cons, offset_and_mask, imp_false] at *
    simp [*, Instr.mnemonic]

/-- Settles O3: the offset, and at offset 0 the command, picks the row in the table and in the decoder. -/
theorem registerWordsFollowTheFirstMatchingRow : Obligations.RegisterWordsFollowTheFirstMatchingRow :=
  fun _ v h4 => ⟨decodeRegw_is_first_row v h4, decodeRegr_is_first_row h4⟩

/-- Settles O4: eight closed words, each read by the decoder. -/
theorem wordsDecodeAsTheSpecWritesThem : Obligations.WordsDecodeAsTheSpecWritesThem := by
  unfold Obligations.WordsDecodeAsTheSpecWritesThem
  decide

/-! The default normalized sample (30_encoding.md R75). -/

/-- Mirroring a word's bits is `BitRev` of its value. -/
theorem toNat_reverse {n : Nat} (x : BitVec n) : x.reverse.toNat = bitRev n x.toNat := by
  refine Nat.eq_of_testBit_eq fun j => ?_
  rw [testBit_bitRev, BitVec.testBit_toNat, BitVec.testBit_toNat, BitVec.getLsbD_reverse,
    BitVec.getMsbD_eq_getLsbD]

/-- Settles O7: the format is the mirrored sample above six zeros, which is the closed form of
`Normalize`. -/
theorem defaultSampleFormatIsItsNormalizedValue :
    Obligations.DefaultSampleFormatIsItsNormalizedValue := by
  intro raw
  refine congrArg Encoded.normSample (BitVec.eq_of_toNat_eq ?_)
  have hvalue : (raw.reverse ++ 0#6).toNat = normalizeSample 10 16 raw.toNat := by
    rw [normalizeSample_eq_two_pow_mul (by decide) raw.isLt, BitVec.toNat_append, toNat_reverse,
      Nat.shiftLeft_eq, Nat.mul_comm]
    exact Nat.or_zero _
  rw [BitVec.toNat_ofNat, hvalue, Nat.mod_eq_of_lt (normalizeSample_lt 10 16 _)]

end Sys2Proof.Machine

/-! One step (43_sequencer.md R120, R127): the word of the next event, the addresses that no register
answers, and the decoder where it has no step. -/

namespace Sys2Proof.Machine

open Sys2Proof.Safety

/-! The word of the next event. -/

theorem step_bus_of_ok {s : State} {w : Encoded} {rest : List Event} {i : Instr}
    (h : s.pending = .bus w :: rest) (hd : decode w = .ok i) :
    step s = exec i { s with pending := rest } := by
  rw [step_bus h, hd]

theorem step_bus_of_off_grid {s : State} {w : Encoded} {rest : List Event}
    (h : s.pending = .bus w :: rest) (hd : decode w = .error .notAnAddress) :
    step s = .next { s with pending := rest } := by
  rw [step_bus h, hd]
  rfl

theorem step_step_of_ok {s : State} {rest : List Event} {i : Instr}
    (h : s.pending = .step :: rest) (hd : decode (.seq (selOf s)) = .ok i) :
    step s = exec i { s with pending := rest } := by
  rw [step_step h, hd]

theorem step_nil_of_ok {s : State} {i : Instr} (h : s.pending = [])
    (hd : decode (.seq (selOf s)) = .ok i) : step s = exec i s := by
  rw [step_nil h, hd]

/-- Settles O8: a host event brings its word, a decoder step and an empty queue the selection. -/
theorem stepRunsTheDecodedWord : Obligations.StepRunsTheDecodedWord := fun _ _ =>
  ⟨fun _ _ => step_bus_of_ok, fun _ => step_step_of_ok, step_nil_of_ok⟩

/-- Settles O5: a reserved offset decodes to an operation that is inert but for a read's answer, and an
offset off the grid to none. -/
theorem reservedOffsetsAreInert : Obligations.ReservedOffsetsAreInert := fun _ _ _ v =>
  ⟨fun ho h4 =>
    ⟨fun hp => step_bus_of_ok hp (decodeRegw_of_reserved v ho h4),
      fun hp => step_bus_of_ok hp (decodeRegr_of_reserved ho h4)⟩,
    fun h4 =>
    ⟨fun hp => step_bus_of_off_grid hp (decodeRegw_of_off_grid v h4),
      fun hp => step_bus_of_off_grid hp (decodeRegr_of_off_grid h4)⟩⟩

/-! The decoder's turn. -/

theorem decode_selOf_of_inCheck {s : State} (h : InCheck s) : decode (.seq (selOf s)) = .ok .check := by
  rw [(selOf_eq_checkSel s).mpr h]
  rfl

theorem decode_selOf_of_inRun {s : State} (h : InRun s) : decode (.seq (selOf s)) = .ok .run := by
  rw [(selOf_eq_runSel s).mpr h]
  rfl

theorem decode_selOf_of_unselected {s : State} (hc : ¬ InCheck s) (hr : ¬ InRun s) :
    decode (.seq (selOf s)) = .error .noStep :=
  (if_neg (mt (selOf_eq_checkSel s).mp hc)).trans (if_neg (mt (selOf_eq_runSel s).mp hr))

theorem decode_selOf_of_not_busy {s : State} (h : s.state ≠ .busy) :
    decode (.seq (selOf s)) = .error .noStep :=
  decode_selOf_of_unselected (fun hc => h hc.1) fun hr => h hr.1

/-- Settles O9: the selection of `IDLE`, `DONE` and `ERROR` is no step, and the decoder waits. -/
theorem decoderWaitsOutsideBusy : Obligations.DecoderWaitsOutsideBusy := by
  intro s hs
  have hd := decode_selOf_of_not_busy hs
  refine ⟨fun hp => ?_, fun rest hp => ?_⟩
  · rw [step_nil hp, hd]
    rfl
  · rw [step_step hp, hd]
    rfl

/-- An operation of the `CHECK` step whose check is not reached. -/
theorem inCheck_of_unreached {f : State → State} {s : State} (h : f s = s) : inCheck f s = s := by
  rw [inCheck, h, ite_self]

theorem lenchkStage_of_breaks {s : State} (h : BreaksACondition s.params s.cfg) : lenchkStage s = s :=
  if_pos ((cfgFails_eq_true_iff _ _).mpr h)

theorem dimchkStage_of_earlier_failure {s : State}
    (h : cfgFails s.params s.cfg = true ∨ lenFails s.cfg = true) : dimchkStage s = s :=
  if_pos (Bool.or_eq_true_iff.mpr h)

/-- Settles O10: `sel` gates the operations of each step, and each check asks for the ones before it. -/
theorem unselectedDecoderOperationsDoNothing : Obligations.UnselectedDecoderOperationsDoNothing := by
  intro s
  refine ⟨fun h _ hi => exec_of_not_inCheck hi h, fun h _ hi => exec_of_not_inRun hi h,
    fun hb => ⟨?_, ?_⟩, fun hl => ?_⟩
  · exact congrArg Host.Outcome.next (inCheck_of_unreached (lenchkStage_of_breaks hb))
  · exact congrArg Host.Outcome.next (inCheck_of_unreached
      (dimchkStage_of_earlier_failure (.inl ((cfgFails_eq_true_iff _ _).mpr hb))))
  · exact congrArg Host.Outcome.next (inCheck_of_unreached
      (dimchkStage_of_earlier_failure (.inr (decide_eq_true hl))))

end Sys2Proof.Machine

/-! The operations of the `CHECK` and `RUN` steps: the whole steps as their parts in order, and the
parts `BITREV`, `STORE` and `FINISH`. -/

namespace Sys2Proof.Machine

open Sys2Proof.Safety

/-! The `CHECK` step. -/

theorem not_inCheck_raise (e : ErrCode) (s : State) : ¬ InCheck (raise e s) := nofun

/-- What comes after the three checks of the `CHECK` step (43_sequencer.md R122). -/
def enterRun (s : State) : State := if s.state = .busy then { s with phase := .run } else s

/-- Once a check has raised, the checks after it do nothing, and the state is not `BUSY`. -/
theorem enterRun_raise (e : ErrCode) (s : State) : enterRun (raise e s) = raise e s := if_neg nofun

theorem exec_lenchk_raise (e : ErrCode) (s : State) :
    exec .lenchk (raise e s) = .next (raise e s) := exec_of_not_inCheck rfl (not_inCheck_raise e s)

theorem exec_dimchk_raise (e : ErrCode) (s : State) :
    exec .dimchk (raise e s) = .next (raise e s) := exec_of_not_inCheck rfl (not_inCheck_raise e s)

/-- Settles O25: the first check that fails raises its error, after which no other check is selected. -/
theorem checkIsItsThreeChecksInOrder : Obligations.CheckIsItsThreeChecksInOrder := by
  intro s hs
  change exec .check s = andThen (exec .cfgchk s) fun s1 => andThen (exec .lenchk s1) fun s2 =>
    andThen (exec .dimchk s2) fun s3 => .next (enterRun s3)
  by_cases hb : BreaksACondition s.params s.cfg
  · have hcfg : exec .cfgchk s = .next (raise .badConfig s) := (cfgchkRaisesBadConfig s hs).1 hb
    rw [exec_check_of_error hs (checkError_of_breaks hb), hcfg, andThen_next, exec_lenchk_raise,
      andThen_next, exec_dimchk_raise, andThen_next, enterRun_raise]
  have hc := cfgFails_of_not_breaks hb
  rw [(cfgchkRaisesBadConfig s hs).2 hb, andThen_next, exec_lenchk_of_cfg_passed hs hc]
  by_cases hl : s.cfg.len.toNat % s.cfg.wb = 0
  · rw [if_pos hl, andThen_next, exec_dimchk_of_len_passed hs hc ((lenFails_eq_false_iff _).mpr hl)]
    by_cases hd : s.cfg.ns = s.cfg.n
    · rw [if_pos hd, andThen_next, exec_check_of_none hs (checkError_eq_none_of_pass hc hl hd)]
      exact congrArg _ (if_pos hs.1).symm
    · rw [if_neg hd, andThen_next, exec_check_of_error hs (checkError_of_count_mismatch hc hl hd),
        enterRun_raise]
  · rw [if_neg hl, andThen_next, exec_check_of_error hs (checkError_of_partial_word hc hl),
      exec_dimchk_raise, andThen_next, enterRun_raise]

/-! The `RUN` step. -/

/-- Every operation of the `RUN` step, where the configuration is not legal. -/
theorem exec_of_inRun_of_illegal {i : Instr} {s : State} (hi : i.wholeStep = .run) (h : InRun s)
    (hc : cfgFails s.params s.cfg = true) : exec i s = .fault .configNotLegal := by
  cases i with
  | run | fetchw | extract | zext | bitrev | store | advance | finish =>
    exact (if_pos ((selOf_eq_runSel s).mpr h)).trans (if_pos hc)
  | _ => cases hi

/-- Settles O36: the step and its parts share one gate, which asks for the eight conditions. -/
theorem runWithoutALegalConfigurationStops : Obligations.RunWithoutALegalConfigurationStops :=
  fun _ hs hb _ hi => exec_of_inRun_of_illegal hi hs ((cfgFails_eq_true_iff _ _).mpr hb)

/-- Where the parts of the `RUN` step act. -/
def RunsLegally (s : State) : Prop := InRun s ∧ cfgFails s.params s.cfg = false

theorem runsLegally_of_fetchStage {s t : State} (h : RunsLegally s) (ht : fetchStage s = .next t) :
    RunsLegally t := by
  rcases fetchStage_eq_next ht with ⟨-, rfl⟩ | ⟨-, rfl⟩ <;> exact h

theorem runsLegally_of_storeStage {s t : State} (h : RunsLegally s) (ht : storeStage s = .next t) :
    RunsLegally t := by
  obtain ⟨-, rfl⟩ := storeStage_eq_next ht
  exact h

theorem andThen_congr {r : Result} {f g : State → Result} (h : ∀ s, r = .next s → f s = g s) :
    andThen r f = andThen r g := by
  cases r with
  | next s => exact h s rfl
  | fault _ | refused _ => rfl

/-- The parts of the `RUN` step where the step is selected. -/
theorem exec_run_eq_parts_of_runsLegally {s : State} (h : RunsLegally s) :
    exec .run s = andThen (exec .fetchw s) fun s1 => andThen (exec .extract s1) fun s2 =>
      andThen (exec .zext s2) fun s3 => andThen (exec .bitrev s3) fun s4 =>
      andThen (exec .store s4) fun s5 => andThen (exec .advance s5) fun s6 => exec .finish s6 := by
  rw [exec_run_of_selected h.1 h.2, exec_fetchw_of_selected h.1 h.2, runStep]
  refine andThen_congr fun s1 hs1 => ?_
  have h1 := runsLegally_of_fetchStage h hs1
  rw [exec_extract_of_selected h1.1 h1.2, andThen_next,
    exec_zext_of_selected (s := extractStage s1) h1.1 h1.2, andThen_next,
    exec_bitrev_of_selected (s := zextStage (extractStage s1)) h1.1 h1.2, andThen_next,
    exec_store_of_selected (s := bitrevStage (zextStage (extractStage s1))) h1.1 h1.2]
  refine andThen_congr fun s2 hs2 => ?_
  have h2 : RunsLegally s2 :=
    runsLegally_of_storeStage (s := bitrevStage (zextStage (extractStage s1))) h1 hs2
  rw [exec_advance_of_selected h2.1 h2.2, andThen_next,
    exec_finish_of_selected (s := advanceStage s2) h2.1 h2.2]

/-- Settles O33: no part before the last leaves `BUSY`/`RUN`, and where the step is not selected or is
not legal, no part is. -/
theorem runIsItsPartsInOrder : Obligations.RunIsItsPartsInOrder := by
  intro s
  by_cases hs : InRun s
  · cases hc : cfgFails s.params s.cfg with
    | false => exact exec_run_eq_parts_of_runsLegally ⟨hs, hc⟩
    | true =>
      rw [exec_of_inRun_of_illegal rfl hs hc, exec_of_inRun_of_illegal rfl hs hc, andThen_fault]
  · have hidle {i : Instr} (hi : i.wholeStep = .run) := exec_of_not_inRun hi hs
    rw [hidle rfl, hidle rfl, andThen_next, hidle rfl, andThen_next, hidle rfl, andThen_next,
      hidle rfl, andThen_next, hidle rfl, andThen_next, hidle rfl, andThen_next, hidle rfl]

/-- The wires before a sample do not show after its three stages (log 8). -/
theorem sampleStages_of_path (s : State) (p : DataPath) :
    bitrevStage (zextStage (extractStage { s with path := p })) =
      bitrevStage (zextStage (extractStage s)) := rfl

theorem fetchStage_of_path (s : State) (p : DataPath) :
    fetchStage { s with path := p } = andThen (fetchStage s) fun t => .next { t with path := p } := by
  unfold fetchStage
  split_ifs <;> rfl

/-- At the first sample of a word `FETCHW` overwrites `WORD`. -/
theorem fetchStage_of_word {s : State} (hk : s.kidx = 0) (v : Nat) :
    fetchStage { s with word := v } = fetchStage s := by
  unfold fetchStage
  rw [if_pos hk, if_pos hk]
  rfl

theorem runStep_of_path (s : State) (p : DataPath) : runStep { s with path := p } = runStep s := by
  rw [runStep, runStep, fetchStage_of_path]
  cases fetchStage s <;> rfl

theorem runStep_of_word {s : State} (hk : s.kidx = 0) (v : Nat) :
    runStep { s with word := v } = runStep s := by
  rw [runStep, fetchStage_of_word hk, runStep]

/-- The gate of the `RUN` step looks at neither the wires nor `WORD`. -/
theorem exec_run_of_runStep_eq {s : State} {p : DataPath} {v : Nat} (hs : InRun s)
    (h : runStep { s with path := p, word := v } = runStep s) :
    exec .run { s with path := p, word := v } = exec .run s := by
  have hs' : InRun { s with path := p, word := v } := hs
  cases hc : cfgFails s.params s.cfg with
  | false => rw [exec_run_of_selected hs hc, exec_run_of_selected hs' hc, h]
  | true => rw [exec_of_inRun_of_illegal rfl hs hc, exec_of_inRun_of_illegal rfl hs' hc]

/-- Settles O35: the three stages drive each wire before the next reads it, and at `KIDX` 0 the word is
fetched first. -/
theorem runStepIgnoresStaleWiresAndWord : Obligations.RunStepIgnoresStaleWiresAndWord := by
  intro s p v hs
  refine ⟨exec_run_of_runStep_eq hs (runStep_of_path s p), fun hk => exec_run_of_runStep_eq hs ?_⟩
  exact (runStep_of_path { s with word := v } p).trans (runStep_of_word hk v)

/-! `BITREV`, `STORE` and `FINISH`. -/

theorem testBit_bitRev_mirror {n i : Nat} (x : Nat) (hi : i < n) :
    (bitRev n x).testBit (n - 1 - i) = x.testBit i := by
  rw [testBit_bitRev, decide_eq_true (show n - 1 - i < n by omega), Bool.true_and,
    show n - 1 - (n - 1 - i) = i by omega]

/-- Settles O29: `BITREV` puts `BitRev_O(x)` on the y wire. -/
theorem bitrevMirrorsEveryBit : Obligations.BitrevMirrorsEveryBit := fun _ hs hb =>
  ⟨_, exec_bitrev_of_selected hs (cfgFails_of_not_breaks hb), bitRev_lt _ _,
    fun _ => testBit_bitRev_mirror _⟩

/-- Settles O30: `OIDX` is a cell of the grid, which lies inside `OUT`, and `STORE` writes there. -/
theorem storeWritesOneCell : Obligations.StoreWritesOneCell := by
  intro s hs hr
  obtain ⟨-, -, -, -, -, -, -, -, hout⟩ := legal_counts hr.legal
  have hexec := exec_store_of_selected hs (cfgFails_of_legal hr.legal)
  rw [storeStage_of_lt (hr.oidx.trans_le hout)] at hexec
  refine ⟨hr.oidx, hout, (Nat.div_add_mod' _ _).symm, _, hexec, rfl, ?_, fun i hi => ?_⟩
  · rw [outCell_setOut, if_pos rfl]
  · rw [outCell_setOut, if_neg hi]

/-- Settles O32: `FINISH` compares `OIDX` with `N`. -/
theorem finishEndsTheDecode : Obligations.FinishEndsTheDecode := by
  intro s hs hb
  rw [exec_finish_of_selected hs (cfgFails_of_not_breaks hb), finishStage]
  exact ⟨fun h => by rw [if_pos (show s.oidx.toNat = s.cfg.n from h)],
    fun h => by rw [if_neg (show s.oidx.toNat ≠ s.cfg.n from h)]⟩

/-- Settles O37: each row has the refusal that names it for its meaning. -/
theorem dataFormatsAreNoOperations : Obligations.DataFormatsAreNoOperations := fun _ =>
  ⟨fun _ _ _ _ => rfl, fun _ => rfl⟩

end Sys2Proof.Machine

/-! Memory transactions (44_host_interface.md R147, R148) and the grid they read
(42_raster_assembler.md R113, R115). -/

namespace Sys2Proof.Machine

open Sys2Proof.Safety

/-! The grid. -/

theorem grid_succ (width height : Nat) (seq : List Nat) :
    grid width (height + 1) seq = seq.take width :: grid width height (seq.drop width) := by
  simp [grid, List.range_succ_eq_map, Function.comp_def, Nat.succ_mul, Nat.add_comm]

/-- Rows that take up the whole sequence give it back. -/
theorem grid_flatten {width height : Nat} {seq : List Nat} (h : seq.length = width * height) :
    (grid width height seq).flatten = seq := by
  induction height generalizing seq with
  | zero => exact (List.length_eq_zero_iff.mp h).symm
  | succ height ih =>
    rw [grid_succ, List.flatten_cons, ih, List.take_append_drop]
    rw [List.length_drop, h, Nat.mul_succ, Nat.add_sub_cancel]

/-- Settles O43: row `r` is the slice from `r * width`, and the slices lie end to end. -/
theorem gridIsRowMajorAndLosesNothing : Obligations.GridIsRowMajorAndLosesNothing := by
  intro width height seq hlen
  refine ⟨grid_length _ _ _, fun row hrow => ?_, fun _ _ => grid_cell seq, grid_flatten hlen⟩
  obtain ⟨r, hr⟩ := List.mem_iff_getElem?.mp hrow
  exact grid_row_length hlen hr

/-! `WRIN` and `RDOUT`. -/

/-- Settles O18: `WRIN` is one byte of `IN` set under its gate. -/
theorem wrinWritesOneByteInIdle : Obligations.WrinWritesOneByteInIdle := by
  refine fun a b s => ⟨rfl, fun hs ha => ?_, fun h => ?_⟩
  · rw [exec_wrin, if_pos ⟨hs, ha⟩]
    refine ⟨_, rfl, rfl, ?_, fun x hx => ?_⟩
    · rw [inByte_setIn, if_pos rfl]
    · rw [inByte_setIn, if_neg hx]
  · rw [exec_wrin, if_neg fun hgate => h.elim (· hgate.1) hgate.2.not_ge]

/-- Settles O20: without a readable cell `RDOUT` answers the next draw. -/
theorem rdoutElsewhereAnswersAFreshValue : Obligations.RdoutElsewhereAnswersAFreshValue := by
  intro s i h
  rw [exec_rdout, if_neg fun hgate => h.elim (· hgate.1) hgate.2.not_ge]
  rfl

/-- `DONE` is the end of a run for its own configuration and buffer. -/
theorem endsAsDecode_self_of_done {s : State} (hinv : Inv s) (hs : s.state = .done) :
    EndsAsDecode s s := by
  obtain ⟨hlegal, hfill⟩ := hinv.done hs
  exact endsAsDecode_of_filled hlegal rfl rfl hs (err_eq_none_of_inv hinv (by simp [hs])) hfill
    fun _ _ => rfl

theorem decodeFrame_of_legal {s : State} (h : Legal s) :
    decodeFrame s.params s.cfg (inByte s) =
      .ok (grid s.cfg.width.toNat s.cfg.height.toNat (normSeq s.cfg (inByte s))) := by
  rw [decodeFrame, h]

/-- Settles O19: in `DONE` every cell holds its element of `NormSeq`, so `OUT` is `Decode`'s grid. -/
theorem rdoutInDoneAnswersTheGrid : Obligations.RdoutInDoneAnswersTheGrid := by
  intro s hinv hs
  obtain ⟨hlegal, hfill⟩ := hinv.done hs
  have hframe := decodeFrame_of_legal hlegal
  refine ⟨_, hframe, fun i hi => ⟨outCell s i.toNat, ?_, rfl, ?_, ?_⟩⟩
  · rw [exec_rdout, if_pos ⟨hs, hi⟩]
    rfl
  · rw [hfill _ hi]
    exact normAt_lt _ _ _
  · exact cell_of_endsAsDecode_ok (endsAsDecode_self_of_done hinv hs) hframe hi

end Sys2Proof.Machine

/-! Reset and the invariant (10_state.md R39 to R41): what each kind of state must hold, that every step
keeps it, and that no step from such a state stops. -/

namespace Sys2Proof.Machine

open Sys2Proof.Safety

/-! The reset values. -/

/-- Settles O11: the state is written out, and its memories are empty. -/
theorem resetStateHoldsTheResetValues : Obligations.ResetStateHoldsTheResetValues :=
  ⟨rfl, rfl, rfl, rfl, rfl, rfl, rfl, rfl, fun _ => rfl, fun _ => rfl, rfl, rfl⟩

/-- Settles O12: `RESET` looks at the parameters and the draw number alone. -/
theorem resetFromAnyState : Obligations.ResetFromAnyState := fun s =>
  ⟨resetState s, rfl, rfl, rfl, rfl, rfl, rfl, rfl, rfl, rfl, fun _ => rfl, fun _ => rfl, rfl, rfl, rfl,
    rfl, rfl⟩

/-! The invariant by the sequencer's state. -/

theorem inv_of_idle {s : State} (hf : Formed s) (hs : s.state = .idle) (he : s.err = .none) : Inv s where
  formed := hf
  err := by simp [hs, he]
  check h := by simp [hs] at h
  run h := by simp [hs] at h
  done h := by simp [hs] at h

theorem inv_of_error {s : State} (hf : Formed s) (hs : s.state = .error) (he : s.err ≠ .none) :
    Inv s where
  formed := hf
  err := by simp [hs, he]
  check h := by simp [hs] at h
  run h := by simp [hs] at h
  done h := by simp [hs] at h

theorem inv_of_inCheck {s : State} (hf : Formed s) (hs : InCheck s) (he : s.err = .none)
    (hzero : s.widx = 0 ∧ s.kidx = 0 ∧ s.oidx = 0) : Inv s where
  formed := hf
  err := by simp [hs.1, he]
  check _ _ := hzero
  run _ h := by simp [hs.2] at h
  done h := by simp [hs.1] at h

theorem inv_of_inRun {s : State} (hf : Formed s) (hs : InRun s) (he : s.err = .none)
    (hr : Running s) : Inv s where
  formed := hf
  err := by simp [hs.1, he]
  check _ h := by simp [hs.2] at h
  run _ _ := hr
  done h := by simp [hs.1] at h

theorem inv_of_done {s : State} (hf : Formed s) (hs : s.state = .done) (he : s.err = .none)
    (hd : Legal s ∧ Filled s s.cfg.n) : Inv s where
  formed := hf
  err := by simp [hs, he]
  check h := by simp [hs] at h
  run h := by simp [hs] at h
  done _ := hd

/-! The form of the data. -/

theorem formed_powerUp {p : Params} (h : p.wf = true) (draw : Nat) : Formed (State.powerUp p draw) where
  params := h
  word := BitVec.isLt _
  inForm := rfl
  inBelow := rfl
  outForm := rfl
  outBelow := rfl
  outWidth _ := BitVec.isLt _
  draws := Nat.lt_succ_self draw

theorem inv_powerUp {p : Params} (h : p.wf = true) (draw : Nat) : Inv (State.powerUp p draw) :=
  inv_of_idle (formed_powerUp h draw) rfl rfl

/-- Settles O44: the suggested parameters meet their constraints. -/
theorem invariantHoldsAtReset : Obligations.InvariantHoldsAtReset := inv_powerUp (by decide) 0

/-- The form of the data is that of the parameters, `WORD`, the memories and the draws. -/
theorem formed_congr {s t : State} (h : Formed s)
    (ht : t = { s with
      cfg := t.cfg, state := t.state, err := t.err, phase := t.phase
      widx := t.widx, kidx := t.kidx, oidx := t.oidx
      path := t.path, pending := t.pending, response := t.response }) : Formed t := by
  rw [ht]
  exact ⟨h.params, h.word, h.inForm, h.inBelow, h.outForm, h.outBelow, h.outWidth, h.draws⟩

theorem formed_setIn {s : State} {a : Nat} (h : Formed s) (b : Byte) (ha : a < s.params.inSize) :
    Formed (setIn a b s) where
  params := h.params
  word := h.word
  inForm := Memory.wf_set _ _ _ h.inForm
  inBelow := Memory.below_set _ _ _ _ ha h.inBelow
  outForm := h.outForm
  outBelow := h.outBelow
  outWidth := h.outWidth
  draws := h.draws

theorem formed_setOut {s : State} {i v : Nat} (h : Formed s) (hi : i < s.params.outSize)
    (hv : v < 2 ^ s.params.oMax) : Formed (setOut i v s) where
  params := h.params
  word := h.word
  inForm := h.inForm
  inBelow := h.inBelow
  outForm := Memory.wf_set _ _ _ h.outForm
  outBelow := Memory.below_set _ _ _ _ hi h.outBelow
  outWidth k := by
    rw [outCell_setOut]
    split_ifs
    exacts [hv, h.outWidth k]
  draws := h.draws

theorem formed_of_word {s : State} {v : Nat} (h : Formed s) (hv : v < 2 ^ s.params.wMax) :
    Formed { s with word := v } :=
  ⟨h.params, hv, h.inForm, h.inBelow, h.outForm, h.outBelow, h.outWidth, h.draws⟩

/-- What a `RUN` step writes fits: the word `WORD`, the sample its cell, and the cell `OUT`. -/
theorem formed_sampleTaken {s : State} (h : Formed s) (hr : Running s) : Formed (sampleTaken s) := by
  obtain ⟨-, -, -, -, -, -, hwb, -, hout⟩ := legal_counts hr.legal
  obtain ⟨-, -, hw, -, -, -, -, ho, -⟩ := (cfgFails_eq_false_iff _ _).mp (cfgFails_of_legal hr.legal)
  have hword : wordAt s.cfg.wb (inByte s) s.widx.toNat < 2 ^ s.params.wMax :=
    (wordAt_lt _ _ _).trans_le (Nat.pow_le_pow_right two_pos (by omega))
  have hsample : normAt s.cfg (inByte s) s.oidx.toNat < 2 ^ s.params.oMax :=
    (normAt_lt _ _ _).trans_le (Nat.pow_le_pow_right two_pos ho)
  exact formed_congr (formed_setOut (formed_of_word h hword) (hr.oidx.trans_le hout) hsample) rfl

/-! Host transactions and `RESET`. -/

theorem inv_pending {s : State} (h : Inv s) (rest : List Event) : Inv { s with pending := rest } :=
  Inv_congr h rfl le_rfl

theorem err_eq_none_of_idle {s : State} (h : Inv s) (hs : s.state = .idle) : s.err = .none :=
  err_eq_none_of_inv h (by simp [hs])

theorem inv_start {s : State} (h : Inv s) (hs : s.state = .idle) :
    Inv { s with state := .busy, phase := .check, widx := 0, kidx := 0, oidx := 0 } :=
  have herr := err_eq_none_of_idle h hs
  inv_of_inCheck (formed_congr h.formed rfl) ⟨rfl, rfl⟩ herr ⟨rfl, rfl, rfl⟩

theorem inv_acknowledge {s : State} (h : Inv s) : Inv (acknowledge s) :=
  inv_of_idle (formed_congr h.formed rfl) rfl rfl

theorem inv_writeCfg {s : State} (h : Inv s) (f : Cfg → Cfg) : Inv (writeCfg f s) := by
  by_cases hs : s.state = .idle
  · rw [writeCfg_of_idle f hs]
    have herr := err_eq_none_of_idle h hs
    exact inv_of_idle (formed_congr h.formed rfl) hs herr
  · rwa [writeCfg_of_not_idle f hs]

theorem inv_respond {s : State} (h : Inv s) (r : Response) : Inv (respond r s) :=
  Inv_congr h rfl le_rfl

theorem inv_respondAny {s : State} (h : Inv s) : Inv (respondAny s) :=
  Inv_congr h rfl (Nat.le_succ _)

theorem inv_setIn {s : State} {a : Nat} (h : Inv s) (b : Byte) (hs : s.state = .idle)
    (ha : a < s.params.inSize) : Inv (setIn a b s) :=
  have herr := err_eq_none_of_idle h hs
  inv_of_idle (formed_setIn h.formed b ha) hs herr

/-- An operation that keeps the invariant, if it answers a next state. -/
def KeepsInv (i : Instr) : Prop := ∀ s t : State, Safety.Inv s → exec i s = .next t → Safety.Inv t

theorem keepsInv_of_exec_eq {i : Instr} {f : State → State} (he : ∀ s, exec i s = .next (f s))
    (hf : ∀ s : State, Inv s → Inv (f s)) : KeepsInv i := fun s _ hinv h =>
  Host.Outcome.next.inj ((he s).symm.trans h) ▸ hf s hinv

theorem keepsInv_of_isTransaction {i : Instr} (h : (encode i).isTransaction = true) : KeepsInv i := by
  cases transactionEffect_of_isTransaction h with
  | start =>
    refine keepsInv_of_exec_eq (fun _ => rfl) fun s hinv => ?_
    split_ifs with hs
    exacts [inv_start hinv hs, hinv]
  | clear =>
    refine keepsInv_of_exec_eq (fun _ => rfl) fun s hinv => ?_
    split_ifs
    exacts [inv_acknowledge hinv, hinv]
  | wrin a b =>
    refine keepsInv_of_exec_eq (exec_wrin a b) fun s hinv => ?_
    split_ifs with hgate
    exacts [inv_setIn hinv b hgate.1 hgate.2, hinv]
  | rdout k =>
    refine keepsInv_of_exec_eq (exec_rdout k) fun s hinv => ?_
    split_ifs
    exacts [inv_respond hinv _, inv_respondAny hinv]
  | inert he => exact keepsInv_of_exec_eq he fun _ hinv => hinv
  | configures f he => exact keepsInv_of_exec_eq he fun _ hinv => inv_writeCfg hinv f
  | answers r he => exact keepsInv_of_exec_eq he fun _ hinv => inv_respond hinv _

theorem keepsInv_reset : KeepsInv .reset :=
  keepsInv_of_exec_eq (fun _ => rfl) fun s hinv =>
    Inv_congr (inv_powerUp hinv.formed.params s.draws) rfl le_rfl

/-! The decoder's steps. -/

theorem inv_checkStep {s : State} (h : Inv s) (hs : InCheck s) : Inv (checkStep s) := by
  have herr := err_eq_none_of_inv h (by simp [hs.1])
  cases he : checkError s.params s.cfg with
  | some e =>
    rw [checkStep_of_error he]
    refine inv_of_error (formed_congr h.formed rfl) rfl ?_
    rintro rfl
    exact checkError_ne_none_code _ _ he
  | none =>
    obtain ⟨hw, hk, ho⟩ := h.check hs.1 hs.2
    rw [checkStep_of_none he]
    exact inv_of_inRun (formed_congr h.formed rfl) ⟨hs.1, rfl⟩ herr
      (running_of_check_passed he hw hk ho)

theorem inv_sampleTaken {s : State} (h : Inv s) (hs : InRun s) : Inv (sampleTaken s) := by
  have hr := h.run hs.1 hs.2
  have herr := err_eq_none_of_inv h (by simp [hs.1])
  have hf := formed_sampleTaken h.formed hr
  have hstate := sampleTaken_state h.formed.params hr
  have hlt := hr.oidx
  by_cases hlast : s.oidx.toNat + 1 = s.cfg.n
  · rw [if_pos hlast] at hstate
    exact inv_of_done hf hstate herr ⟨hr.legal, hlast ▸ filled_sampleTaken hr.filled⟩
  · rw [if_neg hlast, hs.1] at hstate
    exact inv_of_inRun hf ⟨hstate, hs.2⟩ herr (running_sampleTaken h.formed.params hr (by omega))

theorem keepsInv_check : KeepsInv .check := by
  refine keepsInv_of_exec_eq (fun _ => rfl) fun s hinv => ?_
  by_cases hs : InCheck s
  · rw [inCheck_of_selected hs]
    exact inv_checkStep hinv hs
  · rwa [inCheck_of_not_selected hs]

theorem keepsInv_run : KeepsInv .run := by
  intro s t hinv h
  by_cases hs : InRun s
  · rw [exec_run_of_running hs (hinv.run hs.1 hs.2)] at h
    exact Host.Outcome.next.inj h ▸ inv_sampleTaken hinv hs
  · rw [exec_of_not_inRun rfl hs] at h
    exact Host.Outcome.next.inj h ▸ hinv

/-! One step. -/

/-- The state that awaits the events after the next. -/
theorem nextEvent_snd (s : State) : (nextEvent s).2 = { s with pending := (nextEvent s).2.pending } := by
  unfold nextEvent
  split <;> rfl

/-- Everything a step can do, if it answers a next state: it takes the next event off and nothing else, or
executes a whole step on what is left. -/
theorem step_eq_next {s t : State} (h : step s = .next t) :
    ∃ rest, t = { s with pending := rest } ∨
      ∃ i, i.wholeStep = i ∧ exec i { s with pending := rest } = .next t := by
  refine ⟨(nextEvent s).2.pending, ?_⟩
  rw [← nextEvent_snd]
  unfold step at h
  split at h
  next i hd => exact .inr ⟨i, wholeStep_of_decode hd, h⟩
  next e hd =>
    cases e with
    | notAnAddress | noStep => exact .inl (Host.Outcome.next.inj h).symm
    | notASample => cases h

/-- Settles O45: a step takes an event off and executes a whole step, a transaction or `RESET`, each of
which keeps the invariant. -/
theorem everyStepKeepsTheInvariant : Obligations.EveryStepKeepsTheInvariant := by
  intro s t hinv h
  obtain ⟨rest, rfl | ⟨i, hwhole, he⟩⟩ := step_eq_next h
  · exact inv_pending hinv rest
  suffices hkeeps : KeepsInv i from hkeeps _ _ (inv_pending hinv rest) he
  rcases kind_of_exec_eq_next he with htrans | rfl | hcheck | hrun
  · exact keepsInv_of_isTransaction htrans
  · exact keepsInv_reset
  · exact (hwhole.symm.trans hcheck) ▸ keepsInv_check
  · exact (hwhole.symm.trans hrun) ▸ keepsInv_run

theorem exec_of_isEvent {i : Instr} {s : State} (hinv : Inv s) (h : IsEvent i) :
    ∃ t, exec i s = .next t := by
  obtain ⟨t, ht, -⟩ := transitionsAreTheTable i s hinv h
  exact ⟨t, ht⟩

/-- The decoder's turn: one of the two steps, or waiting. -/
theorem decode_selOf (s : State) :
    (∃ i, decode (.seq (selOf s)) = .ok i ∧ IsEvent i) ∨
      decode (.seq (selOf s)) = .error .noStep := by
  by_cases hc : InCheck s
  · exact .inl ⟨_, decode_selOf_of_inCheck hc, .inr (.inl rfl)⟩
  by_cases hr : InRun s
  · exact .inl ⟨_, decode_selOf_of_inRun hr, .inr (.inr (.inl rfl))⟩
  · exact .inr (decode_selOf_of_unselected hc hr)

/-- The word of an event: an event's operation, or no operation but one that may wait. -/
def Answerable (w : Encoded) : Prop :=
  (∃ i, decode w = .ok i ∧ IsEvent i) ∨ decode w = .error .notAnAddress ∨ decode w = .error .noStep

theorem answerable_selOf (s : State) : Answerable (.seq (selOf s)) :=
  (decode_selOf s).imp_right .inr

theorem answerable_of_isTransaction {w : Encoded} (h : w.isTransaction = true) : Answerable w := by
  rcases decode_of_isTransaction h with ⟨i, hi, htrans⟩ | herr
  · exact .inl ⟨i, hi, .inl htrans⟩
  · exact .inr (.inl herr)

theorem answerable_reset : Answerable .reset := .inl ⟨_, rfl, .inr (.inr (.inr rfl))⟩

theorem step_of_answerable {s : State} (hinv : Inv s)
    (h : Answerable (eventWord (nextEvent s).1 (nextEvent s).2)) : ∃ t, step s = .next t := by
  unfold step
  rcases h with ⟨i, hi, hevent⟩ | herr | herr
  · rw [hi]
    refine exec_of_isEvent ?_ hevent
    rw [nextEvent_snd]
    exact inv_pending hinv _
  · rw [herr]
    exact ⟨_, rfl⟩
  · rw [herr]
    exact ⟨_, rfl⟩

/-- Settles O46: every event's word is an operation of the transition table, or has the step wait. -/
theorem nothingStopsTheMachine : Obligations.NothingStopsTheMachine := by
  intro s hinv hbus
  refine step_of_answerable hinv ?_
  match hp : s.pending with
  | [] => rw [nextEvent_nil hp]; exact answerable_selOf s
  | .step :: rest => rw [nextEvent_cons hp]; exact answerable_selOf _
  | .bus w :: rest =>
    rw [nextEvent_cons hp]
    rcases hbus w rest hp with htrans | rfl
    · exact answerable_of_isTransaction htrans
    · exact answerable_reset

end Sys2Proof.Machine

/-! Who writes what (10_state.md section 8, 20_memory.md R59): what the operations of the decoder and the
host's transactions leave alone. -/

namespace Sys2Proof.Machine

open Sys2Proof.Safety

/-! The operations of the decoder. -/

/-- What an operation of the decoder leaves alone: the host's side always, `WORD` and `OUT` unless it is
the step or the part that writes them. -/
structure DecoderFrame (i : Instr) (s t : State) : Prop where
  params : t.params = s.params
  cfg : t.cfg = s.cfg
  inMem : t.inMem = s.inMem
  epoch : t.epoch = s.epoch
  word : i ≠ .run → i ≠ .fetchw → t.word = s.word
  outMem : i ≠ .run → i ≠ .store → t.outMem = s.outMem

/-- An operation that moves the control, the counters and the wires alone. -/
theorem decoderFrame_of_control {s t : State} (i : Instr)
    (h : t = { s with
      state := t.state, err := t.err, phase := t.phase
      widx := t.widx, kidx := t.kidx, oidx := t.oidx, path := t.path }) : DecoderFrame i s t := by
  rw [h]
  exact ⟨rfl, rfl, rfl, rfl, fun _ _ => rfl, fun _ _ => rfl⟩

theorem decoderFrame_self (i : Instr) (s : State) : DecoderFrame i s s := decoderFrame_of_control i rfl

theorem decoderFrame_inCheck {i : Instr} {f : State → State} (s : State)
    (h : DecoderFrame i s (f s)) : DecoderFrame i s (inCheck f s) := by
  unfold inCheck
  split_ifs
  exacts [h, decoderFrame_self i s]

theorem decoderFrame_checkStep (i : Instr) (s : State) : DecoderFrame i s (checkStep s) := by
  unfold checkStep
  split_ifs <;> exact decoderFrame_of_control i rfl

theorem decoderFrame_cfgchkStage (i : Instr) (s : State) : DecoderFrame i s (cfgchkStage s) := by
  unfold cfgchkStage
  split_ifs <;> exact decoderFrame_of_control i rfl

theorem decoderFrame_lenchkStage (i : Instr) (s : State) : DecoderFrame i s (lenchkStage s) := by
  unfold lenchkStage
  split_ifs <;> exact decoderFrame_of_control i rfl

theorem decoderFrame_dimchkStage (i : Instr) (s : State) : DecoderFrame i s (dimchkStage s) := by
  unfold dimchkStage
  split_ifs <;> exact decoderFrame_of_control i rfl

/-- An operation of the `CHECK` step moves the control alone. -/
theorem decoderFrame_of_check {i : Instr} {s t : State} (hi : i.wholeStep = .check)
    (h : exec i s = .next t) : DecoderFrame i s t := by
  cases i with
  | check => exact Host.Outcome.next.inj h ▸ decoderFrame_inCheck s (decoderFrame_checkStep _ s)
  | cfgchk => exact Host.Outcome.next.inj h ▸ decoderFrame_inCheck s (decoderFrame_cfgchkStage _ s)
  | lenchk => exact Host.Outcome.next.inj h ▸ decoderFrame_inCheck s (decoderFrame_lenchkStage _ s)
  | dimchk => exact Host.Outcome.next.inj h ▸ decoderFrame_inCheck s (decoderFrame_dimchkStage _ s)
  | _ => cases hi

theorem decoderFrame_of_inRun {i : Instr} {f : State → Result} {s t : State}
    (hf : f s = .next t → DecoderFrame i s t) (h : inRun f s = .next t) : DecoderFrame i s t := by
  rcases inRun_eq_next h with ⟨-, -, -, he⟩ | ⟨-, rfl⟩
  exacts [hf he, decoderFrame_self _ _]

/-- A part of the `RUN` step that cannot stop. -/
theorem decoderFrame_of_inRun_next {i : Instr} {f : State → State} {s t : State}
    (hf : DecoderFrame i s (f s)) (h : inRun (fun s => .next (f s)) s = .next t) :
    DecoderFrame i s t := by
  refine decoderFrame_of_inRun (fun he => ?_) h
  rwa [← Host.Outcome.next.inj he]

theorem decoderFrame_of_fetchStage {i : Instr} {s t : State} (hi : i = .run ∨ i = .fetchw)
    (h : fetchStage s = .next t) : DecoderFrame i s t := by
  rcases fetchStage_eq_next h with ⟨-, rfl⟩ | ⟨-, rfl⟩
  · exact ⟨rfl, rfl, rfl, rfl, fun hrun hfetch => absurd hi (not_or.mpr ⟨hrun, hfetch⟩), fun _ _ => rfl⟩
  · exact decoderFrame_self _ _

theorem decoderFrame_of_storeStage {s t : State} (h : storeStage s = .next t) :
    DecoderFrame .store s t := by
  obtain ⟨-, rfl⟩ := storeStage_eq_next h
  exact ⟨rfl, rfl, rfl, rfl, fun _ _ => rfl, fun _ hne => absurd rfl hne⟩

theorem decoderFrame_of_runStep {s t : State} (h : runStep s = .next t) : DecoderFrame .run s t := by
  obtain ⟨s1, s2, hfetch, hs2, -, ht⟩ := runStep_eq_next h
  have h1 : DecoderFrame .run s s1 := decoderFrame_of_fetchStage (.inl rfl) hfetch
  refine ⟨?_, ?_, ?_, ?_, fun hne _ => absurd rfl hne, fun hne _ => absurd rfl hne⟩
  · simp [ht, hs2, h1.params]
  · simp [ht, hs2, h1.cfg]
  · simp [ht, hs2, h1.inMem]
  · simp [ht, hs2, h1.epoch]

/-- An operation of the `RUN` step writes its own part of the data path, or nothing. -/
theorem decoderFrame_of_run {i : Instr} {s t : State} (hi : i.wholeStep = .run)
    (h : exec i s = .next t) : DecoderFrame i s t := by
  cases i with
  | run => exact decoderFrame_of_inRun decoderFrame_of_runStep h
  | fetchw => exact decoderFrame_of_inRun (decoderFrame_of_fetchStage (.inr rfl)) h
  | store => exact decoderFrame_of_inRun decoderFrame_of_storeStage h
  | extract => exact decoderFrame_of_inRun_next (f := extractStage) (decoderFrame_of_control _ rfl) h
  | zext => exact decoderFrame_of_inRun_next (f := zextStage) (decoderFrame_of_control _ rfl) h
  | bitrev => exact decoderFrame_of_inRun_next (f := bitrevStage) (decoderFrame_of_control _ rfl) h
  | advance => exact decoderFrame_of_inRun_next (f := advanceStage) (decoderFrame_of_control _ rfl) h
  | finish => exact decoderFrame_of_inRun_next (f := finishStage) (decoderFrame_of_control _ rfl) h
  | _ => cases hi

/-! Host transactions. -/

/-- What every host transaction leaves alone: the parameters, `WORD` and `OUT`. -/
structure TransactionFrame (s t : State) : Prop where
  params : t.params = s.params
  epoch : t.epoch = s.epoch
  word : t.word = s.word
  outMem : t.outMem = s.outMem

theorem transactionFrame_of_exec {i : Instr} {s t : State} (hi : (encode i).isTransaction = true)
    (h : exec i s = .next t) : TransactionFrame s t := by
  cases transactionEffect_of_isTransaction hi with
  | start | clear | wrin _ _ | rdout _ =>
    obtain rfl := Host.Outcome.next.inj h
    split_ifs <;> exact ⟨rfl, rfl, rfl, rfl⟩
  | inert he =>
    obtain rfl := Host.Outcome.next.inj ((he s).symm.trans h)
    exact ⟨rfl, rfl, rfl, rfl⟩
  | configures f he =>
    obtain rfl := Host.Outcome.next.inj ((he s).symm.trans h)
    exact ⟨writeCfg_params f s, writeCfg_epoch f s, writeCfg_word f s, writeCfg_outMem f s⟩
  | answers r he =>
    obtain rfl := Host.Outcome.next.inj ((he s).symm.trans h)
    exact ⟨rfl, rfl, rfl, rfl⟩

/-- The seven writes to a configuration register (44_host_interface.md R141). -/
def IsConfigWrite (i : Instr) : Prop :=
  ∃ v, i = .wrregCfgW v ∨ i = .wrregCfgB v ∨ i = .wrregCfgS v ∨ i = .wrregCfgO v ∨
    i = .wrregCfgWidth v ∨ i = .wrregCfgHeight v ∨ i = .wrregCfgLen v

theorem cfg_of_transaction {i : Instr} {s t : State} (hi : (encode i).isTransaction = true)
    (h : exec i s = .next t) (hc : ¬ IsConfigWrite i ∨ s.state ≠ .idle) : t.cfg = s.cfg := by
  cases i with
  | wrregCfgW v | wrregCfgB v | wrregCfgS v | wrregCfgO v | wrregCfgWidth v | wrregCfgHeight v
  | wrregCfgLen v =>
    obtain rfl := Host.Outcome.next.inj h
    rw [writeCfg_of_not_idle _ (hc.resolve_left (not_not.mpr ⟨v, by simp⟩))]
  | start | clear | wrin _ _ | rdout _ =>
    obtain rfl := Host.Outcome.next.inj h
    split_ifs <;> rfl
  | nop | cmdReserved _ | wrstatus _ | regwReserved _ _ | rdregCmd | rdregStatus | rdregCfgW
  | rdregCfgB | rdregCfgS | rdregCfgO | rdregCfgWidth | rdregCfgHeight | rdregCfgLen
  | regrReserved _ =>
    obtain rfl := Host.Outcome.next.inj h
    rfl
  | _ => cases hi

theorem inByte_of_transaction {i : Instr} {s t : State} (hi : (encode i).isTransaction = true)
    (h : exec i s = .next t) (hc : (∀ a b, i ≠ .wrin a b) ∨ s.state ≠ .idle) :
    inByte t = inByte s := by
  cases transactionEffect_of_isTransaction hi with
  | wrin a b =>
    have hs := hc.resolve_left fun hne => hne a b rfl
    rw [exec_wrin, if_neg fun hgate => hs hgate.1] at h
    rw [Host.Outcome.next.inj h]
  | start | clear | rdout _ =>
    obtain rfl := Host.Outcome.next.inj h
    split_ifs <;> rfl
  | inert he => rw [Host.Outcome.next.inj ((he s).symm.trans h)]
  | configures f he =>
    obtain rfl := Host.Outcome.next.inj ((he s).symm.trans h)
    exact inByte_congr (writeCfg_inMem f s) (writeCfg_epoch f s)
  | answers r he =>
    obtain rfl := Host.Outcome.next.inj ((he s).symm.trans h)
    rfl

/-! Every operation but `RESET`. -/

/-- An operation that answers a next state and is no `RESET` is a transaction or an operation of the
decoder. -/
theorem transaction_or_decoderFrame {i : Instr} {s t : State} (h : exec i s = .next t)
    (hi : i ≠ .reset) : (encode i).isTransaction = true ∨ DecoderFrame i s t := by
  rcases kind_of_exec_eq_next h with htrans | hreset | hcheck | hrun
  · exact .inl htrans
  · exact absurd hreset hi
  · exact .inr (decoderFrame_of_check hcheck h)
  · exact .inr (decoderFrame_of_run hrun h)

theorem cfg_of_exec {i : Instr} {s t : State} (h : exec i s = .next t) (hi : i ≠ .reset)
    (hc : ¬ IsConfigWrite i ∨ s.state ≠ .idle) : t.cfg = s.cfg := by
  rcases transaction_or_decoderFrame h hi with htrans | hframe
  · exact cfg_of_transaction htrans h hc
  · exact hframe.cfg

theorem inByte_of_exec {i : Instr} {s t : State} (h : exec i s = .next t) (hi : i ≠ .reset)
    (hc : (∀ a b, i ≠ .wrin a b) ∨ s.state ≠ .idle) : inByte t = inByte s := by
  rcases transaction_or_decoderFrame h hi with htrans | hframe
  · exact inByte_of_transaction htrans h hc
  · exact inByte_congr hframe.inMem hframe.epoch

theorem outCell_of_exec {i : Instr} {s t : State} (h : exec i s = .next t) (hi : i ≠ .reset)
    (hrun : i ≠ .run) (hstore : i ≠ .store) : outCell t = outCell s := by
  rcases transaction_or_decoderFrame h hi with htrans | hframe
  · have hframe := transactionFrame_of_exec htrans h
    exact outCell_congr hframe.outMem hframe.epoch hframe.params
  · exact outCell_congr (hframe.outMem hrun hstore) hframe.epoch hframe.params

theorem word_of_exec {i : Instr} {s t : State} (h : exec i s = .next t) (hi : i ≠ .reset)
    (hrun : i ≠ .run) (hfetch : i ≠ .fetchw) : t.word = s.word := by
  rcases transaction_or_decoderFrame h hi with htrans | hframe
  · exact (transactionFrame_of_exec htrans h).word
  · exact hframe.word hrun hfetch

/-- Settles O48: the two kinds of write that reach them are gated by `IDLE`. -/
theorem configurationAndBufferAreFrozenOutsideIdle :
    Obligations.ConfigurationAndBufferAreFrozenOutsideIdle := fun _ _ _ hs hi h =>
  ⟨cfg_of_exec h hi (.inr hs), congrFun (inByte_of_exec h hi (.inr hs))⟩

/-- Settles O49: each part of the state has the writers its frame leaves open. -/
theorem whoWritesWhat : Obligations.WhoWritesWhat := by
  intro i s t h hi
  refine ⟨fun hrun hstore => congrFun (outCell_of_exec h hi hrun hstore), word_of_exec h hi,
    fun hw => congrFun (inByte_of_exec h hi (.inl hw)), fun hc => cfg_of_exec h hi (.inl ?_)⟩
  rintro ⟨v, hv⟩
  have := hc v
  tauto

theorem params_of_exec {i : Instr} {s t : State} (h : exec i s = .next t) : t.params = s.params := by
  by_cases hi : i = .reset
  · subst hi
    obtain rfl : resetState s = t := Host.Outcome.next.inj h
    rfl
  · rcases transaction_or_decoderFrame h hi with htrans | hframe
    · exact (transactionFrame_of_exec htrans h).params
    · exact hframe.params

/-- Settles O50: no operation changes them, `RESET` included. -/
theorem noStepChangesTheParameters : Obligations.NoStepChangesTheParameters := by
  intro s t h
  obtain ⟨rest, rfl | ⟨i, -, he⟩⟩ := step_eq_next h
  · rfl
  · have hparams := params_of_exec he
    exact hparams

end Sys2Proof.Machine

/-! A run with the host silent (43_sequencer.md R130): with nothing pending the decoder steps, so the run
takes exactly its own steps. -/

namespace Sys2Proof.Machine

open Sys2Proof.Safety

/-- With nothing pending the step is the decoder's (log 2). -/
theorem step_of_silent {t : State} (hp : t.pending = []) :
    step t = step { t with pending := [.step] } := by
  have ht : t = { t with pending := [] } := by rw [← hp]
  unfold step
  rw [nextEvent_nil hp, nextEvent_cons (s := { t with pending := [.step] }) rfl]
  rw [← ht]

theorem step_of_decoding_silent {s t : State} (h : Decoding s t) (hp : t.pending = []) :
    ∃ u, step t = .next u ∧ u.pending = [] ∧ DecodesOn s t u := by
  have hd : Decoding s { t with pending := [.step] } := decoding_of_hostSideOnly rfl h
  rw [step_of_silent hp]
  exact step_of_decoding hd rfl

/-- A run left alone is `BUSY` after fewer steps than it has to go, and ends as `Decode` after them. -/
theorem run_of_decoding_silent {s t : State} (h : Decoding s t) (hp : t.pending = []) :
    (∀ k, k < stepsLeft t → ∃ u, Host.Core.run core k t = .next u ∧ u.state = .busy) ∧
      ∃ u, Host.Core.run core (stepsLeft t) t = .next u ∧ EndsAsDecode s u := by
  induction hn : stepsLeft t generalizing t with
  | zero => exact absurd hn (stepsLeft_pos h).ne'
  | succ n ih =>
    obtain ⟨u, hstep, hpu, hnext⟩ := step_of_decoding_silent h hp
    rw [run_succ n hstep]
    rcases hnext with ⟨hd, hleft⟩ | ⟨hend, hone⟩
    · obtain ⟨hbusy, hlast⟩ := ih hd hpu (by omega)
      refine ⟨fun k hk => ?_, hlast⟩
      cases k with
      | zero => exact ⟨t, rfl, h.busy⟩
      | succ k =>
        rw [run_succ k hstep]
        exact hbusy k (by omega)
    · obtain rfl : n = 0 := by omega
      refine ⟨fun k hk => ?_, u, rfl, hend⟩
      obtain rfl : k = 0 := by omega
      exact ⟨t, rfl, h.busy⟩

/-- Settles O52: `START` leaves a run with all its steps to go, and nobody but the decoder takes one. -/
theorem aDecodeLeftAloneComputesTheFrame : Obligations.ADecodeLeftAloneComputesTheFrame := by
  intro s hinv hs hp
  obtain ⟨t, hstep, hpt, hd, hleft⟩ := step_of_start hinv hs hp
  obtain ⟨hbusy, u, hrun, hend⟩ := run_of_decoding_silent hd hpt
  rw [hleft] at hbusy hrun
  refine ⟨fun k hk => ?_, u, ?_, hend⟩
  · rw [Nat.add_comm, run_succ k hstep]
    exact hbusy k hk
  · rw [Nat.add_comm, run_succ _ hstep]
    exact hrun

end Sys2Proof.Machine
